-- ==== Sys2Proof/Word.lean ====
section
/-! DEFINITION. The widths of xochip CORE (`00_scope.md` R6): bytes and general registers are 8 bits (`XLEN`),
the program counter, the index register and an instruction word are 16 bits (`ALEN`, R15), a register number is
one of sixteen (`NREG`). -/

namespace Sys2Proof

/-- A general register, a timer, the pitch register or a byte of memory (R6 `XLEN`). -/
abbrev Byte := BitVec 8

/-- An instruction word, a stored offset or a logical address (R6 `ALEN`, R12). -/
abbrev Word := BitVec 16

/-- The number of a general register, `V0` to `VF` (R21). -/
abbrev Reg := Fin 16

end Sys2Proof
end

