-- ==== Sys2Proof/Syntax.lean ====
section
/-! DEFINITION. The instructions: one constructor per row of `spec/opcode_table.json` (`30_encoding.md` R77), in the
table's order, with the fields the table gives the row. Register fields are register numbers, immediates are the
unsigned bit fields of R76. -/

namespace Sys2Proof

/-- A decoded instruction word (R73). `LDL` has no operand here: the table gives its row no field, decoding is a
function of the first word alone, and the 16-bit immediate is fetched by the instruction's own rule (R87, R141). -/
inductive Instr where
  | cls
  | ret
  | jp (nnn : BitVec 12)
  | call (nnn : BitVec 12)
  | sei (x : Reg) (nn : Byte)
  | snei (x : Reg) (nn : Byte)
  | ser (x y : Reg)
  | str (x y : Reg)
  | ldr (x y : Reg)
  | ldn (x : Reg) (nn : Byte)
  | addn (x : Reg) (nn : Byte)
  | mov (x y : Reg)
  | or (x y : Reg)
  | and (x y : Reg)
  | xor (x y : Reg)
  | add (x y : Reg)
  | sub (x y : Reg)
  | shr (x y : Reg)
  | subn (x y : Reg)
  | shl (x y : Reg)
  | sner (x y : Reg)
  | ldi (nnn : BitVec 12)
  | jp0 (nnn : BitVec 12)
  | drwx (x y : Reg)
  | drw (x y : Reg) (n : BitVec 4)
  | skp (x : Reg)
  | sknp (x : Reg)
  | ldl
  | plane (m : BitVec 2)
  | aud
  | ldvdt (x : Reg)
  | ldk (x : Reg)
  | lddt (x : Reg)
  | ldst (x : Reg)
  | addi (x : Reg)
  | ldf (x : Reg)
  | bcd (x : Reg)
  | ldpitch (x : Reg)
  | stm (x : Reg)
  | ldm (x : Reg)
deriving DecidableEq, Repr

end Sys2Proof
end

