-- ==== Sys2Proof/WellFormed.lean ====
section
/-! DEFINITION. The check on instructions that their field types do not already make: the height of `DRW` is 1 to 15
(`43_display.md` R163), since `N = 0` is the row `DRWX` (`30_encoding.md` R77). Register numbers are below 16, the
mask of `PLANE` is below 4 and every immediate has its width by type. -/

namespace Sys2Proof

/-- The instruction has a word in the opcode map that selects its own row (R77). -/
def Instr.wf : Instr → Bool
  | .drw _ _ n => n != 0
  | _ => true

end Sys2Proof
end

