-- ==== Sys2Proof/Decode.lean ====
section
/-! DEFINITION. Decoding and encoding (`30_encoding.md`). `decode` is the two-level dispatch of R78, total on every
16-bit word and rejecting by name; `encode` gives an instruction's word from the formats of R75; `opcodeRows` is the
flat opcode map of R77, kept beside them as a second transcription of the spec. All opcode numbers are the spec's
decision D6 (general knowledge, not the source). -/

namespace Sys2Proof

/-! ### Fields of a word (R72) -/

/-- `W[15:12]`. -/
def fieldClass (w : Word) : BitVec 4 := w.extractLsb' 12 4

/-- `X = W[11:8]`. -/
def fieldX (w : Word) : Reg := (w.extractLsb' 8 4).toFin

/-- `Y = W[7:4]`. -/
def fieldY (w : Word) : Reg := (w.extractLsb' 4 4).toFin

/-- `N = W[3:0]`. -/
def fieldN (w : Word) : BitVec 4 := w.extractLsb' 0 4

/-- `NN = W[7:0]`. -/
def fieldNN (w : Word) : Byte := w.extractLsb' 0 8

/-- `NNN = W[11:0]`. -/
def fieldNNN (w : Word) : BitVec 12 := w.extractLsb' 0 12

/-- The mask of `PLANE`, `W[9:8]`, the low two bits of `X` (R161, R77). -/
def fieldPlanes (w : Word) : BitVec 2 := w.extractLsb' 8 2

/-! ### Decoding -/

/-- Why a decoder gives no instruction. -/
inductive DecodeError where
  /-- The word selects no row of the opcode map: `InvalidInstruction` (R73, R86). -/
  | noRow (w : Word)
  /-- Fewer than the two bytes of a word were given. -/
  | truncated (bytes : Nat)
deriving DecidableEq, Repr

/-- Class `0x5` by `N` (R78). -/
def decodeClass5 (w : Word) : Except DecodeError Instr :=
  match (fieldN w).toNat with
  | 0x0 => .ok (.ser (fieldX w) (fieldY w))
  | 0x2 => .ok (.str (fieldX w) (fieldY w))
  | 0x3 => .ok (.ldr (fieldX w) (fieldY w))
  | _ => .error (.noRow w)

/-- Class `0x8` by `N` (R78). -/
def decodeClass8 (w : Word) : Except DecodeError Instr :=
  match (fieldN w).toNat with
  | 0x0 => .ok (.mov (fieldX w) (fieldY w))
  | 0x1 => .ok (.or (fieldX w) (fieldY w))
  | 0x2 => .ok (.and (fieldX w) (fieldY w))
  | 0x3 => .ok (.xor (fieldX w) (fieldY w))
  | 0x4 => .ok (.add (fieldX w) (fieldY w))
  | 0x5 => .ok (.sub (fieldX w) (fieldY w))
  | 0x6 => .ok (.shr (fieldX w) (fieldY w))
  | 0x7 => .ok (.subn (fieldX w) (fieldY w))
  | 0xE => .ok (.shl (fieldX w) (fieldY w))
  | _ => .error (.noRow w)

/-- Class `0xE` by `NN` (R78). -/
def decodeClassE (w : Word) : Except DecodeError Instr :=
  match (fieldNN w).toNat with
  | 0x9E => .ok (.skp (fieldX w))
  | 0xA1 => .ok (.sknp (fieldX w))
  | _ => .error (.noRow w)

/-- Class `0xF` by `NN`; `LDL` and `AUD` only with `X = 0`, `PLANE` only with `X <= 3` (R78). -/
def decodeClassF (w : Word) : Except DecodeError Instr :=
  match (fieldNN w).toNat with
  | 0x00 => if fieldX w = 0 then .ok .ldl else .error (.noRow w)
  | 0x01 => if fieldX w ≤ 3 then .ok (.plane (fieldPlanes w)) else .error (.noRow w)
  | 0x02 => if fieldX w = 0 then .ok .aud else .error (.noRow w)
  | 0x07 => .ok (.ldvdt (fieldX w))
  | 0x0A => .ok (.ldk (fieldX w))
  | 0x15 => .ok (.lddt (fieldX w))
  | 0x18 => .ok (.ldst (fieldX w))
  | 0x1E => .ok (.addi (fieldX w))
  | 0x29 => .ok (.ldf (fieldX w))
  | 0x33 => .ok (.bcd (fieldX w))
  | 0x3A => .ok (.ldpitch (fieldX w))
  | 0x55 => .ok (.stm (fieldX w))
  | 0x65 => .ok (.ldm (fieldX w))
  | _ => .error (.noRow w)

/-- The instruction a word selects, or that it selects none (R73, R78, R86). -/
def decode (w : Word) : Except DecodeError Instr :=
  match (fieldClass w).toNat with
  | 0x0 => if w = 0x00E0 then .ok .cls else if w = 0x00EE then .ok .ret else .error (.noRow w)
  | 0x1 => .ok (.jp (fieldNNN w))
  | 0x2 => .ok (.call (fieldNNN w))
  | 0x3 => .ok (.sei (fieldX w) (fieldNN w))
  | 0x4 => .ok (.snei (fieldX w) (fieldNN w))
  | 0x5 => decodeClass5 w
  | 0x6 => .ok (.ldn (fieldX w) (fieldNN w))
  | 0x7 => .ok (.addn (fieldX w) (fieldNN w))
  | 0x8 => decodeClass8 w
  | 0x9 => if fieldN w = 0 then .ok (.sner (fieldX w) (fieldY w)) else .error (.noRow w)
  | 0xA => .ok (.ldi (fieldNNN w))
  | 0xB => .ok (.jp0 (fieldNNN w))
  | 0xD => if fieldN w = 0 then .ok (.drwx (fieldX w) (fieldY w))
           else .ok (.drw (fieldX w) (fieldY w) (fieldN w))
  | 0xE => decodeClassE w
  | 0xF => decodeClassF w
  | _ => .error (.noRow w)

/-- The word two bytes make: big-endian, high byte first (R57). -/
def wordOfBytes (hi lo : Byte) : Word := hi ++ lo

/-- Decoding a byte string as the hardware stores it: the first instruction word and the bytes after it (R57). -/
def decodeBytes : List Byte → Except DecodeError (Instr × List Byte)
  | hi :: lo :: rest => (decode (wordOfBytes hi lo)).map (fun i => (i, rest))
  | bs => .error (.truncated bs.length)

/-! ### Encoding (R75) -/

/-- Format `NNN`. -/
def formatNNN (c : BitVec 4) (nnn : BitVec 12) : Word := c ++ nnn

/-- Format `XNN`, and `XKK` with its discriminant byte. -/
def formatXNN (c : BitVec 4) (x : Reg) (nn : Byte) : Word := (c ++ BitVec.ofFin (w := 4) x) ++ nn

/-- Format `XYN`. -/
def formatXYN (c : BitVec 4) (x y : Reg) (n : BitVec 4) : Word :=
  ((c ++ BitVec.ofFin (w := 4) x) ++ BitVec.ofFin (w := 4) y) ++ n

/-- The instruction's word; for `LDL` its first word, the only one an `Instr` determines (R87). -/
def encode : Instr → Word
  | .cls => 0x00E0
  | .ret => 0x00EE
  | .jp nnn => formatNNN 0x1 nnn
  | .call nnn => formatNNN 0x2 nnn
  | .sei x nn => formatXNN 0x3 x nn
  | .snei x nn => formatXNN 0x4 x nn
  | .ser x y => formatXYN 0x5 x y 0x0
  | .str x y => formatXYN 0x5 x y 0x2
  | .ldr x y => formatXYN 0x5 x y 0x3
  | .ldn x nn => formatXNN 0x6 x nn
  | .addn x nn => formatXNN 0x7 x nn
  | .mov x y => formatXYN 0x8 x y 0x0
  | .or x y => formatXYN 0x8 x y 0x1
  | .and x y => formatXYN 0x8 x y 0x2
  | .xor x y => formatXYN 0x8 x y 0x3
  | .add x y => formatXYN 0x8 x y 0x4
  | .sub x y => formatXYN 0x8 x y 0x5
  | .shr x y => formatXYN 0x8 x y 0x6
  | .subn x y => formatXYN 0x8 x y 0x7
  | .shl x y => formatXYN 0x8 x y 0xE
  | .sner x y => formatXYN 0x9 x y 0x0
  | .ldi nnn => formatNNN 0xA nnn
  | .jp0 nnn => formatNNN 0xB nnn
  | .drwx x y => formatXYN 0xD x y 0x0
  | .drw x y n => formatXYN 0xD x y n
  | .skp x => formatXNN 0xE x 0x9E
  | .sknp x => formatXNN 0xE x 0xA1
  | .ldl => 0xF000
  | .plane m => formatXNN 0xF (m.setWidth 4).toFin 0x01
  | .aud => 0xF002
  | .ldvdt x => formatXNN 0xF x 0x07
  | .ldk x => formatXNN 0xF x 0x0A
  | .lddt x => formatXNN 0xF x 0x15
  | .ldst x => formatXNN 0xF x 0x18
  | .addi x => formatXNN 0xF x 0x1E
  | .ldf x => formatXNN 0xF x 0x29
  | .bcd x => formatXNN 0xF x 0x33
  | .ldpitch x => formatXNN 0xF x 0x3A
  | .stm x => formatXNN 0xF x 0x55
  | .ldm x => formatXNN 0xF x 0x65

/-- The bytes of a word in fetch order, high byte first (R57). -/
def bytesOfWord (w : Word) : List Byte := [w.extractLsb' 8 8, w.extractLsb' 0 8]

/-- The instruction the decoder reads from an instruction whose bits are `w`, bit 0 the least significant bit of the
first word, laid out in memory order with every bit above `nbits` zero. -/
def decodeTableWord (nbits w : Nat) : Option Instr :=
  let bits := w % 2 ^ nbits
  match decodeBytes (bytesOfWord (BitVec.ofNat 16 bits) ++ bytesOfWord (BitVec.ofNat 16 (bits / 65536))) with
  | .ok (i, _) => some i
  | .error _ => none

/-! ### The opcode map as a table (R77) -/

/-- One row of R77: a word selects it when `(W and mask) = pattern`. -/
structure OpcodeRow where
  mnemonic : String
  pattern : Word
  mask : Word
deriving DecidableEq, Repr

/-- Rows of the classes `0x0` to `0x7` (R77). -/
def opcodeRowsLow : List OpcodeRow :=
  [⟨"CLS", 0x00E0, 0xFFFF⟩, ⟨"RET", 0x00EE, 0xFFFF⟩, ⟨"JP", 0x1000, 0xF000⟩, ⟨"CALL", 0x2000, 0xF000⟩,
   ⟨"SEI", 0x3000, 0xF000⟩, ⟨"SNEI", 0x4000, 0xF000⟩, ⟨"SER", 0x5000, 0xF00F⟩, ⟨"STR", 0x5002, 0xF00F⟩,
   ⟨"LDR", 0x5003, 0xF00F⟩, ⟨"LDN", 0x6000, 0xF000⟩, ⟨"ADDN", 0x7000, 0xF000⟩]

/-- Rows of the classes `0x8` to `0xE` (R77); `DRWX` stands before `DRW`. -/
def opcodeRowsMiddle : List OpcodeRow :=
  [⟨"MOV", 0x8000, 0xF00F⟩, ⟨"OR", 0x8001, 0xF00F⟩, ⟨"AND", 0x8002, 0xF00F⟩, ⟨"XOR", 0x8003, 0xF00F⟩,
   ⟨"ADD", 0x8004, 0xF00F⟩, ⟨"SUB", 0x8005, 0xF00F⟩, ⟨"SHR", 0x8006, 0xF00F⟩, ⟨"SUBN", 0x8007, 0xF00F⟩,
   ⟨"SHL", 0x800E, 0xF00F⟩, ⟨"SNER", 0x9000, 0xF00F⟩, ⟨"LDI", 0xA000, 0xF000⟩, ⟨"JP0", 0xB000, 0xF000⟩,
   ⟨"DRWX", 0xD000, 0xF00F⟩, ⟨"DRW", 0xD000, 0xF000⟩, ⟨"SKP", 0xE09E, 0xF0FF⟩, ⟨"SKNP", 0xE0A1, 0xF0FF⟩]

/-- Rows of the class `0xF` (R77). -/
def opcodeRowsHigh : List OpcodeRow :=
  [⟨"LDL", 0xF000, 0xFFFF⟩, ⟨"PLANE", 0xF001, 0xFCFF⟩, ⟨"AUD", 0xF002, 0xFFFF⟩, ⟨"LDVDT", 0xF007, 0xF0FF⟩,
   ⟨"LDK", 0xF00A, 0xF0FF⟩, ⟨"LDDT", 0xF015, 0xF0FF⟩, ⟨"LDST", 0xF018, 0xF0FF⟩, ⟨"ADDI", 0xF01E, 0xF0FF⟩,
   ⟨"LDF", 0xF029, 0xF0FF⟩, ⟨"BCD", 0xF033, 0xF0FF⟩, ⟨"LDPITCH", 0xF03A, 0xF0FF⟩, ⟨"STM", 0xF055, 0xF0FF⟩,
   ⟨"LDM", 0xF065, 0xF0FF⟩]

/-- The forty rows of R77 in their order. -/
def opcodeRows : List OpcodeRow := opcodeRowsLow ++ opcodeRowsMiddle ++ opcodeRowsHigh

/-- The first row a word matches (R77). -/
def firstRow (w : Word) : Option OpcodeRow := opcodeRows.find? (fun r => decide (w &&& r.mask = r.pattern))

/-- The row's mnemonic in `spec/opcode_table.json` (R88). -/
def Instr.mnemonic : Instr → String
  | .cls => "CLS" | .ret => "RET" | .jp _ => "JP" | .call _ => "CALL"
  | .sei _ _ => "SEI" | .snei _ _ => "SNEI" | .ser _ _ => "SER" | .str _ _ => "STR" | .ldr _ _ => "LDR"
  | .ldn _ _ => "LDN" | .addn _ _ => "ADDN" | .mov _ _ => "MOV" | .or _ _ => "OR" | .and _ _ => "AND"
  | .xor _ _ => "XOR" | .add _ _ => "ADD" | .sub _ _ => "SUB" | .shr _ _ => "SHR" | .subn _ _ => "SUBN"
  | .shl _ _ => "SHL" | .sner _ _ => "SNER" | .ldi _ => "LDI" | .jp0 _ => "JP0" | .drwx _ _ => "DRWX"
  | .drw _ _ _ => "DRW" | .skp _ => "SKP" | .sknp _ => "SKNP" | .ldl => "LDL" | .plane _ => "PLANE"
  | .aud => "AUD" | .ldvdt _ => "LDVDT" | .ldk _ => "LDK" | .lddt _ => "LDDT" | .ldst _ => "LDST"
  | .addi _ => "ADDI" | .ldf _ => "LDF" | .bcd _ => "BCD" | .ldpitch _ => "LDPITCH" | .stm _ => "STM"
  | .ldm _ => "LDM"

end Sys2Proof
end

