-- ==== Sys2Proof/Config.lean ====
section
/-! DEFINITION. The parameters of `00_scope.md` R6 that the spec leaves as arguments of the model: the size of the
reserved region and of memory, the font, and the shift mode. The values the spec takes for them are in
`Machine/Params.lean`. Parameters whose number the source gives (16 registers, 16 stack entries, 128 by 64 pixels,
two planes, 16 audio bytes, 16 keys) are in the types of `Machine/State.lean`. The block has no free value:
no rule of the spec leaves a result open. -/

namespace Sys2Proof

/-- One instantiation of the block (R6, R36): no command and no instruction changes it. -/
structure Config where
  /-- `RESERVED`: bytes of the logical address space below the stored memory. -/
  reserved : Nat
  /-- `MEM_SIZE`: number of stored bytes. -/
  memSize : Nat
  /-- `FONT_GLYPHS`: number of built-in glyphs. -/
  fontGlyphs : Nat
  /-- `GLYPH_H`: bytes of one glyph. -/
  glyphH : Nat
  /-- `FONT_ROM`: the glyph bytes, glyph 0 first (R56). -/
  fontRom : List Byte
  /-- `SHIFT_BY_VY`: false, `SHR` and `SHL` shift by one; true, by the value of `V[Y]` (R36). -/
  shiftByVy : Bool
deriving DecidableEq, Repr

/-- The size of the font table in the logical address space (R53). -/
def Config.fontSize (c : Config) : Nat := c.fontGlyphs * c.glyphH

/-- `LOGICAL_TOP` (R7). -/
def Config.logicalTop (c : Config) : Nat := c.reserved + c.memSize

/-- The constraints the parameters must satisfy (R6), and that `FONT_ROM` holds as many bytes as R6 gives it. -/
abbrev Config.wf (c : Config) : Prop :=
  c.reserved % 2 = 0 ∧ c.memSize % 2 = 0 ∧ 2 ≤ c.memSize ∧ c.logicalTop ≤ 65536 ∧ c.memSize ≤ 65532 ∧
    c.fontSize ≤ c.reserved ∧ c.fontRom.length = c.fontSize

end Sys2Proof
end

