-- ==== Sys2Proof/Machine/State.lean ====
section
/-! DEFINITION. The state of the block (`10_state.md` R20) as plain data, its error taxonomy (`60_exceptions.md` R220,
R221), the reasons a step of the model could stop, and the state after reset (R34). -/

namespace Sys2Proof.Machine

/-- The error names of R220. An error is reported to the host and the block goes on (R226, R228). -/
inductive Error where
  /-- Never returned by this block: it has no instance handle (R222). -/
  | nullContext
  /-- `load_rom`, `write_rom`: the bytes do not fit (R202, R203). -/
  | romTooLarge
  /-- Decode finds no row (R86), or `LDF` of a digit that has no glyph (R143). -/
  | invalidInstruction
  /-- A fetch, a control transfer or a data access at or past the top of memory (R223). -/
  | addressOverflow
  /-- A control transfer or a data access below the stored memory (R223). -/
  | addressUnderflow
  /-- `CALL` with sixteen entries on the stack (R102). -/
  | stackOverflow
  /-- `RET` on the empty stack (R100). -/
  | stackUnderflow
deriving DecidableEq, Repr

/-- What a `step`, `load_rom` or `write_rom` command returns (R15 "result code", R200). -/
inductive Result where
  | ok
  | error (e : Error)
deriving DecidableEq, Repr

/-- One bit-plane: row `y` is entry `y`, and bit `x` of a row is the pixel in column `x` (R30). -/
abbrev Plane := Vector (BitVec 128) 64

/-- The stored memory as the bytes that differ from the reset value 0, by stored offset (R50, R34). -/
abbrev Memory := List Host.Cell

/-- The complete state: the elements of R20 under their own names, then two fields of the model's own, the
configuration the block was instantiated with (R6, R36; log entry 3) and the last result code, an output to the host
that nothing in the block reads (R200, R210; log entry 2). -/
structure State where
  /-- `V[0]` to `V[15]` (R21). `V[15]` is the flag register (R35). -/
  v : Vector Byte 16
  /-- `pc`, a stored offset (R22). -/
  pc : Word
  /-- `I`, a logical address (R24). -/
  i : Word
  /-- `sp`, the call stack depth, 0 to 16 (R25). -/
  sp : Fin 17
  /-- `stack[0]` to `stack[15]`, stored offsets (R25). -/
  stack : Vector Word 16
  /-- `DT` (R26). -/
  dt : Byte
  /-- `ST` (R26). -/
  st : Byte
  /-- `PITCH` (R27). -/
  pitch : Byte
  /-- `PLANES`: bit 0 selects plane 1, bit 1 selects plane 2 (R28). -/
  planes : BitVec 2
  /-- `DIRTY` (R29). -/
  dirty : Bool
  /-- `P1` (R30). -/
  p1 : Plane
  /-- `P2` (R30). -/
  p2 : Plane
  /-- `AUDIO[0]` to `AUDIO[15]` (R31). -/
  audio : Vector Byte 16
  /-- `PRESSED` (R32). -/
  pressed : BitVec 16
  /-- `RELEASED` (R33). -/
  released : BitVec 16
  /-- `Mem` (R50). -/
  mem : Memory
  /-- The configuration (R6, R36); not state of the block: no step and no command changes it. -/
  config : Config
  /-- The result code of the last `step`, `load_rom` or `write_rom` (R210). -/
  result : Result
deriving DecidableEq, Repr

/-- Reasons the machine could stop with a fault. There is none: the block never halts (R212, R228), and every error of
R220 is a next state that carries its result code (log entry 1). -/
inductive Fault where
deriving DecidableEq, Repr

/-- Reasons for a step to have no meaning. -/
inductive Refusal where
  /-- The instruction has no meaning in the model yet; raised only by `exec`'s arms, and by none of them now. Safe. -/
  | notModelled (mnemonic : String)
deriving DecidableEq, Repr

/-- A blank plane (R34). -/
def Plane.blank : Plane := Vector.replicate 64 0

/-- The state after `reset` of a block with configuration `c`: every element of R20 is zero (R34). -/
def State.resetWith (c : Config) : State where
  v := Vector.replicate 16 0
  pc := 0
  i := 0
  sp := 0
  stack := Vector.replicate 16 0
  dt := 0
  st := 0
  pitch := 0
  planes := 0
  dirty := false
  p1 := Plane.blank
  p2 := Plane.blank
  audio := Vector.replicate 16 0
  pressed := 0
  released := 0
  mem := []
  config := c
  result := .ok

/-- The default block right after reset (R34, R250). -/
def State.reset : State := State.resetWith defaultConfig

end Sys2Proof.Machine
end

