-- ==== Sys2Proof/Machine/Ops.lean ====
section
/-! DEFINITION. The named operations every meaning is built from: memory, registers, the call stack, data accesses
(`20_memory.md` R54, R55), finishing an instruction and raising an error (`60_exceptions.md` R226), and fetch
(`30_encoding.md` R70, R71). -/

namespace Sys2Proof.Machine

/-! ### Stored memory (R50, R34) -/

/-- What a byte that is not listed reads as: the reset value (R34). -/
def unlistedByte : Byte := 0

/-- The stored byte at a stored offset. -/
def memRead : Memory → Nat → Byte
  | [], _ => unlistedByte
  | (a, b) :: rest, o => if o = a then b else memRead rest o

/-- Put a cell at its place in ascending order. -/
def memInsert : Memory → Nat → Byte → Memory
  | [], o, b => [(o, b)]
  | (a, c) :: rest, o, b => if o < a then (o, b) :: (a, c) :: rest else (a, c) :: memInsert rest o b

/-- The memory with the byte at `o` replaced; a byte equal to what an unlisted offset reads as is not listed. -/
def memWrite (m : Memory) (o : Nat) (b : Byte) : Memory :=
  let others := m.filter (fun c => c.1 != o)
  if b = unlistedByte then others else memInsert others o b

/-- The canonical form: offsets strictly rising, and no cell equal to what an unlisted offset reads as. -/
abbrev Memory.wf (m : Memory) : Prop :=
  m.Pairwise (fun a b => a.1 < b.1) ∧ ∀ c ∈ m, c.2 ≠ unlistedByte

/-- The memory with a byte string copied to ascending offsets (R202, R203). -/
def memWriteBytes (m : Memory) (o : Nat) : List Byte → Memory
  | [] => m
  | b :: bs => memWriteBytes (memWrite m o b) (o + 1) bs

/-! ### Registers -/

/-- Read `V[r]` (R21). -/
def State.readV (s : State) (r : Reg) : Byte := s.v[r]

/-- Write `V[r]`; no register is hard-wired (R21). -/
def State.writeV (s : State) (r : Reg) (b : Byte) : State := { s with v := s.v.set r b }

/-- `VF`, the flag register (R35). -/
def flagReg : Reg := 15

/-- A flag-producing instruction writes the whole flag register with 0 or 1 (R35). -/
def State.writeFlag (s : State) (f : Bool) : State := s.writeV flagReg (if f then 1 else 0)

/-- Write the destination, then the flag, which is what remains when the destination is `VF` (R131). -/
def State.writeResult (s : State) (x : Reg) (b : Byte) (f : Bool) : State := (s.writeV x b).writeFlag f

/-- `pc <- t` (R10). -/
def State.setPc (s : State) (t : Word) : State := { s with pc := t }

/-- `I <- a` (R24). -/
def State.setI (s : State) (a : Word) : State := { s with i := a }

/-- One extra instruction width, two bytes, when the condition holds (`40_control_flow.md` section 3). -/
def State.skipIf (s : State) (c : Bool) : State := if c then s.setPc (s.pc + 2) else s

/-! ### Finishing an instruction, and raising an error -/

/-- Record the result code of a command (R210; the model's own field, log entry 2). -/
def State.setResult (s : State) (r : Result) : State := { s with result := r }

/-- Clear every release edge (R33). -/
def State.clearReleased (s : State) : State := { s with released := 0 }

/-- The instruction completes: the step's result is `Ok` (R204). -/
def complete (s : State) : Host.Outcome State Fault Refusal := .next (s.setResult .ok)

/-- Taking an error (R226): nothing the instruction would have written is written, control goes nowhere, and the
step's result is the error. The advance of `pc` has happened before, the clear of `RELEASED` follows in `endOfStep`.
There is no return from it: no state is saved, and the next step goes on at the advanced `pc` (R228). -/
def raise (e : Error) (s : State) : Host.Outcome State Fault Refusal := .next (s.setResult (.error e))

/-- An instruction that checks everything before it changes anything (R10, R150): `e` is the first failing check. -/
def checked (e : Option Error) (s t : State) : Host.Outcome State Fault Refusal :=
  match e with
  | some e => raise e s
  | none => complete t

/-- The first error of `n` checks made in ascending order (R225). -/
def firstError (check : Nat → Option Error) (n : Nat) : Option Error := (List.range n).findSome? check

/-! ### Data accesses by logical address -/

/-- `CheckRead(a)` (R54). -/
def checkRead (c : Config) (a : Word) : Option Error :=
  if a.toNat < c.fontSize then none
  else if a.toNat < c.reserved then some .addressUnderflow
  else if a.toNat - c.reserved ≥ c.memSize then some .addressOverflow
  else none

/-- `CheckWrite(a)` (R55). -/
def checkWrite (c : Config) (a : Word) : Option Error :=
  if a.toNat < c.reserved then some .addressUnderflow
  else if a.toNat - c.reserved ≥ c.memSize then some .addressOverflow
  else none

/-- The stored offset of a logical address (R12, R52). -/
def State.storedOffset (s : State) (a : Word) : Nat := a.toNat - s.config.reserved

/-- The access part of `MemRead(a, 1)`: a font byte or a stored byte (R54). -/
def State.readByte (s : State) (a : Word) : Byte :=
  if a.toNat < s.config.fontSize then s.config.fontRom.getD a.toNat 0 else memRead s.mem (s.storedOffset a)

/-- The access part of `MemWrite(a, 1, b)` (R55). -/
def State.writeByte (s : State) (a : Word) (b : Byte) : State :=
  { s with mem := memWrite s.mem (s.storedOffset a) b }

/-! ### Call stack (R25) -/

/-- Push; `StackOverflow` is the caller's check. -/
def State.push (s : State) (w : Word) (h : s.sp.val < 16) : State :=
  { s with stack := s.stack.set s.sp.val w, sp := ⟨s.sp.val + 1, by omega⟩ }

/-- The newest entry, `stack[sp - 1]`; `StackUnderflow` is the caller's check. -/
def State.top (s : State) : Word := s.stack[s.sp.val - 1]'(by omega)

/-- The depth after a pop; the popped slot keeps its value (R25, log entry 18). -/
def State.popDepth (s : State) : State := { s with sp := ⟨s.sp.val - 1, by omega⟩ }

/-! ### Fetch and the end of a step -/

/-- The two bytes at `pc`, big-endian, if both lie in memory (R57, R70). -/
def State.fetchWord (s : State) : Option Word :=
  if s.pc.toNat + 1 ≥ s.config.memSize then none
  else some (memRead s.mem s.pc.toNat ++ memRead s.mem (s.pc.toNat + 1))

/-- `pc <- pc + 2`, before dispatch (R71). -/
def State.advance (s : State) : State := s.setPc (s.pc + 2)

/-- The last action of every step: the release edges are cleared (R74). -/
def endOfStep : Host.Outcome State Fault Refusal → Host.Outcome State Fault Refusal
  | .next s => .next s.clearReleased
  | .fault r => .fault r
  | .refused r => .refused r

/-- The bytes of a word at `o` and `o + 1`, high byte first (R57), as far as they lie in memory. -/
def State.placeWord (s : State) (o : Nat) (w : Word) : State :=
  let put := fun (t : State) (k : Nat) (b : Byte) =>
    if k < t.config.memSize then { t with mem := memWrite t.mem k b } else t
  put (put s o (w.extractLsb' 8 8)) (o + 1) (w.extractLsb' 0 8)

/-- The four bytes of a two-word instruction where the next fetch reads. -/
def State.placeInstruction (s : State) (first second : Word) : State :=
  (s.placeWord s.pc.toNat first).placeWord (s.pc.toNat + 2) second

end Sys2Proof.Machine
end

