-- ==== Sys2Proof/Machine/Flags.lean ====
section
/-! DEFINITION. Results and flags of the arithmetic instructions (`41_arith_logic.md`). Every operand is an unsigned
byte; sums and differences are formed on integers and reduced at the end (R132). -/

namespace Sys2Proof.Machine

/-- Carry of `ADD`, from the unwrapped sum (R126). -/
def carryFlag (a b : Byte) : Bool := decide (a.toNat + b.toNat > 255)

/-- Not-borrow of `a - b` (R127, R129). -/
def notBorrowFlag (a b : Byte) : Bool := decide (a.toNat ≥ b.toNat)

/-- `(a + b) mod 256` (R126). -/
def sumOf (a b : Byte) : Byte := BitVec.ofNat 8 (a.toNat + b.toNat)

/-- `(a + 256 - b) mod 256` (R127). -/
def differenceOf (a b : Byte) : Byte := BitVec.ofNat 8 (a.toNat + 256 - b.toNat)

/-- A shifted byte and the flag it leaves. -/
structure Shifted where
  value : Byte
  flag : Bool
deriving DecidableEq, Repr

/-- `SHR` by one bit (R128, default mode). -/
def shrOne (a : Byte) : Shifted := ⟨BitVec.ofNat 8 (a.toNat / 2), a.getLsbD 0⟩

/-- `SHR` by `n` bits (R128, variable mode; the flag is the spec's decision D9). -/
def shrBy (a : Byte) (n : Nat) : Shifted :=
  if n = 0 then ⟨a, false⟩
  else if n ≤ 7 then ⟨BitVec.ofNat 8 (a.toNat / 2 ^ n), a.getLsbD (n - 1)⟩
  else if n = 8 then ⟨0, a.getLsbD 7⟩
  else ⟨0, false⟩

/-- `SHL` by one bit (R130, default mode). -/
def shlOne (a : Byte) : Shifted := ⟨BitVec.ofNat 8 (a.toNat * 2), a.getLsbD 7⟩

/-- `SHL` by `n` bits (R130, variable mode; the flag is the spec's decision D9). -/
def shlBy (a : Byte) (n : Nat) : Shifted :=
  if n = 0 then ⟨a, false⟩
  else if n ≤ 7 then ⟨BitVec.ofNat 8 (a.toNat * 2 ^ n), a.getLsbD (8 - n)⟩
  else if n = 8 then ⟨0, a.getLsbD 0⟩
  else ⟨0, false⟩

/-- `SHR` in the configured mode: `SHIFT_BY_VY` chooses (R128, R36). -/
def shrIn (c : Config) (a : Byte) (n : Nat) : Shifted := if c.shiftByVy then shrBy a n else shrOne a

/-- `SHL` in the configured mode (R130, R36). -/
def shlIn (c : Config) (a : Byte) (n : Nat) : Shifted := if c.shiftByVy then shlBy a n else shlOne a

end Sys2Proof.Machine
end

