-- ==== Sys2Proof/Machine/Arith.lean ====
section
/-! DEFINITION. Arithmetic and logic: `LDN`, `ADDN`, `MOV`, `OR`, `AND`, `XOR`, `ADD`, `SUB`, `SHR`, `SUBN`, `SHL`
(`41_arith_logic.md`). Sources are read first, then the destination is written, then the flag (R131). -/

namespace Sys2Proof.Machine

/-- R120. -/
def execLdn (x : Reg) (nn : Byte) (s : State) : Host.Outcome State Fault Refusal := complete (s.writeV x nn)

/-- R121. -/
def execAddn (x : Reg) (nn : Byte) (s : State) : Host.Outcome State Fault Refusal :=
  complete (s.writeV x (sumOf (s.readV x) nn))

/-- R122. -/
def execMov (x y : Reg) (s : State) : Host.Outcome State Fault Refusal := complete (s.writeV x (s.readV y))

/-- R123. -/
def execOr (x y : Reg) (s : State) : Host.Outcome State Fault Refusal :=
  complete (s.writeResult x (s.readV x ||| s.readV y) false)

/-- R124. -/
def execAnd (x y : Reg) (s : State) : Host.Outcome State Fault Refusal :=
  complete (s.writeResult x (s.readV x &&& s.readV y) false)

/-- R125. -/
def execXor (x y : Reg) (s : State) : Host.Outcome State Fault Refusal :=
  complete (s.writeResult x (s.readV x ^^^ s.readV y) false)

/-- R126. -/
def execAdd (x y : Reg) (s : State) : Host.Outcome State Fault Refusal :=
  complete (s.writeResult x (sumOf (s.readV x) (s.readV y)) (carryFlag (s.readV x) (s.readV y)))

/-- R127. -/
def execSub (x y : Reg) (s : State) : Host.Outcome State Fault Refusal :=
  complete (s.writeResult x (differenceOf (s.readV x) (s.readV y)) (notBorrowFlag (s.readV x) (s.readV y)))

/-- R129. -/
def execSubn (x y : Reg) (s : State) : Host.Outcome State Fault Refusal :=
  complete (s.writeResult x (differenceOf (s.readV y) (s.readV x)) (notBorrowFlag (s.readV y) (s.readV x)))

/-- R128. -/
def execShr (x y : Reg) (s : State) : Host.Outcome State Fault Refusal :=
  let r := shrIn s.config (s.readV x) (s.readV y).toNat
  complete (s.writeResult x r.value r.flag)

/-- R130. -/
def execShl (x y : Reg) (s : State) : Host.Outcome State Fault Refusal :=
  let r := shlIn s.config (s.readV x) (s.readV y).toNat
  complete (s.writeResult x r.value r.flag)

end Sys2Proof.Machine
end

