-- ==== Sys2Proof/Machine/Operands.lean ====
section
/-! DEFINITION. The operand forms: control-transfer targets (`40_control_flow.md` R103), index-relative data addresses
(`42_memory_index.md` R150), register ranges (R148), key numbers (`45_keys.md` R190, R192) and the selected planes
(`43_display.md` R162). Immediates are used at face value (`30_encoding.md` R76). -/

namespace Sys2Proof.Machine

/-- `Translate(T)`: a logical address, an unbounded integer, to a stored offset (R103). -/
def translateTarget (c : Config) (target : Nat) : Except Error Word :=
  if target < c.reserved then .error .addressUnderflow
  else if target - c.reserved ≥ c.memSize then .error .addressOverflow
  else .ok (BitVec.ofNat 16 (target - c.reserved))

/-- The target of `JP0`, not reduced to 12 bits (R104). -/
def State.offsetTarget (s : State) (nnn : BitVec 12) : Nat := nnn.toNat + (s.readV 0).toNat

/-- The logical address of byte `k` of an access at `I`: `(I + k) mod 65536` (R61, R150). -/
def State.addrAt (s : State) (k : Nat) : Word := s.i + BitVec.ofNat 16 k

/-- The first failing `CheckRead` of `n` bytes at `I`, in ascending order (R150, R225). -/
def State.checkReads (s : State) (n : Nat) : Option Error :=
  firstError (fun k => checkRead s.config (s.addrAt k)) n

/-- The first failing `CheckWrite` of `n` bytes at `I`, in ascending order (R150, R225). -/
def State.checkWrites (s : State) (n : Nat) : Option Error :=
  firstError (fun k => checkWrite s.config (s.addrAt k)) n

/-- `I` moved past `n` bytes (R150). -/
def State.bumpI (s : State) (n : Nat) : State := s.setI (s.addrAt n)

/-- `lo = min(X, Y)` (R148). -/
def rangeLow (x y : Reg) : Nat := min x.val y.val

/-- `c = max(X, Y) - min(X, Y) + 1` (R148). -/
def rangeCount (x y : Reg) : Nat := max x.val y.val - rangeLow x y + 1

/-- Register number `n`, for `n` below 16. -/
def regOf (n : Nat) : Reg := Fin.ofNat 16 n

/-- The stores of `STM` and `STR`: for `k = 0 .. n-1`, `V[lo + k]` to the address of byte `k` (R146, R148). -/
def State.storeRegs (s : State) (lo n : Nat) : State :=
  (List.range n).foldl (fun t k => t.writeByte (t.addrAt k) (t.readV (regOf (lo + k)))) s

/-- The loads of `LDM` and `LDR`: for `k = 0 .. n-1`, the byte at the address of byte `k` to `V[lo + k]` (R147, R149). -/
def State.loadRegs (s : State) (lo n : Nat) : State :=
  (List.range n).foldl (fun t k => t.writeV (regOf (lo + k)) (t.readByte (t.addrAt k))) s

/-- `k <= 15 and PRESSED[k] = 1` for the key number in `V[x]` (R190). -/
def State.keyPressed (s : State) (x : Reg) : Bool :=
  decide ((s.readV x).toNat ≤ 15) && s.pressed.getLsbD (s.readV x).toNat

/-- `lsb_index(m)`: the smallest `i` with `m[i] = 1`, for a non-zero `m` (R10). -/
def lsbIndex (m : BitVec 16) : Nat := ((List.range 16).find? (fun k => m.getLsbD k)).getD 0

/-- `PLANES[0]`: plane 1 is selected (R28). -/
def State.selects1 (s : State) : Bool := s.planes.getLsbD 0

/-- `PLANES[1]`: plane 2 is selected (R28). -/
def State.selects2 (s : State) : Bool := s.planes.getLsbD 1

/-- `len(sel)`, the number of selected planes (R162). -/
def State.selectedCount (s : State) : Nat := s.selects1.toNat + s.selects2.toNat

end Sys2Proof.Machine
end

