-- ==== Sys2Proof/Machine/ControlFlow.lean ====
section
/-! DEFINITION. Control flow: `RET`, `JP`, `CALL`, `JP0`, `SEI`, `SNEI`, `SER`, `SNER` (`40_control_flow.md`). In every
meaning `pc` is the already advanced value (R71). -/

namespace Sys2Proof.Machine

/-- R100. -/
def execRet (s : State) : Host.Outcome State Fault Refusal :=
  if s.sp.val = 0 then raise .stackUnderflow s
  else complete (s.popDepth.setPc s.top)

/-- A jump to a logical address (R101, R104). -/
def jumpTo (target : Nat) (s : State) : Host.Outcome State Fault Refusal :=
  match translateTarget s.config target with
  | .error e => raise e s
  | .ok t => complete (s.setPc t)

/-- R101. -/
def execJp (nnn : BitVec 12) (s : State) : Host.Outcome State Fault Refusal := jumpTo nnn.toNat s

/-- R102: the capacity is tested first, then the target, and nothing is pushed on an error. -/
def execCall (nnn : BitVec 12) (s : State) : Host.Outcome State Fault Refusal :=
  if h : s.sp.val < 16 then
    match translateTarget s.config nnn.toNat with
    | .error e => raise e s
    | .ok t => complete ((s.push s.pc h).setPc t)
  else raise .stackOverflow s

/-- R104. -/
def execJp0 (nnn : BitVec 12) (s : State) : Host.Outcome State Fault Refusal := jumpTo (s.offsetTarget nnn) s

/-- R105. -/
def execSei (x : Reg) (nn : Byte) (s : State) : Host.Outcome State Fault Refusal :=
  complete (s.skipIf (s.readV x == nn))

/-- R106. -/
def execSnei (x : Reg) (nn : Byte) (s : State) : Host.Outcome State Fault Refusal :=
  complete (s.skipIf (s.readV x != nn))

/-- R107. -/
def execSer (x y : Reg) (s : State) : Host.Outcome State Fault Refusal :=
  complete (s.skipIf (s.readV x == s.readV y))

/-- R108. -/
def execSner (x y : Reg) (s : State) : Host.Outcome State Fault Refusal :=
  complete (s.skipIf (s.readV x != s.readV y))

end Sys2Proof.Machine
end

