-- ==== Sys2Proof/Machine/Display.lean ====
section
/-! DEFINITION. Display: `CLS`, `PLANE`, `DRW`, `DRWX` and the XOR compositor (`43_display.md`). -/

namespace Sys2Proof.Machine

/-- The pixel `P[x,y]` (R30). -/
def planeGet (p : Plane) (x : Fin 128) (y : Fin 64) : Bool := p[y].getLsbD x.val

/-- `P[x,y] <- P[x,y] xor 1`. -/
def planeFlip (p : Plane) (x : Fin 128) (y : Fin 64) : Plane := p.set y (p[y] ^^^ (1#128 <<< x.val))

/-- The set pixels of a sprite whose first byte is byte `base` of the access at `I`, relative to its origin, in the
order of the loops of R162: row, byte of the row, then bit from the most significant, which is the leftmost pixel. -/
def spritePixels (s : State) (base wb rows : Nat) : List (Nat × Nat) :=
  (List.range rows).flatMap fun r =>
    (List.range wb).flatMap fun b =>
      let byte := s.readByte (s.addrAt (base + r * wb + b))
      ((List.range 8).filter fun c => byte.getLsbD (7 - c)).map fun c => (8 * b + c, r)

/-- A plane being drawn on, with `coll` and `changed` so far (R162). -/
structure Drawing where
  plane : Plane
  coll : Bool
  changed : Bool
deriving DecidableEq, Repr

/-- Nothing drawn yet. -/
def Drawing.start (p : Plane) : Drawing := ⟨p, false, false⟩

/-- One set sprite bit: a collision if the pixel goes from set to unset, and the pixel is toggled (R162). -/
def drawPixel (d : Drawing) (x : Fin 128) (y : Fin 64) : Drawing :=
  ⟨planeFlip d.plane x y, d.coll || planeGet d.plane x y, true⟩

/-- The column of a sprite pixel: `(x0 + dx) mod 128` (R162). -/
def columnAt (x0 : Byte) (dx : Nat) : Fin 128 := Fin.ofNat 128 (x0.toNat + dx)

/-- The row of a sprite pixel: `(y0 + dy) mod 64` (R162). -/
def rowAt (y0 : Byte) (dy : Nat) : Fin 64 := Fin.ofNat 64 (y0.toNat + dy)

/-- All set pixels of one sprite block drawn on one plane, each wrapping by itself (R162). -/
def drawPlane (p : Plane) (x0 y0 : Byte) (pixels : List (Nat × Nat)) : Drawing :=
  pixels.foldl (fun d q => drawPixel d (columnAt x0 q.1) (rowAt y0 q.2)) (Drawing.start p)

/-- `Composite(wb, rows)` on plane 1: the first block, if plane 1 is selected (R162). -/
def drawing1 (x y : Reg) (wb rows : Nat) (s : State) : Drawing :=
  if s.selects1 then drawPlane s.p1 (s.readV x) (s.readV y) (spritePixels s 0 wb rows) else Drawing.start s.p1

/-- `Composite(wb, rows)` on plane 2: the block after plane 1's, or the first if plane 1 is not selected (R162). -/
def drawing2 (x y : Reg) (wb rows : Nat) (s : State) : Drawing :=
  if s.selects2 then
    drawPlane s.p2 (s.readV x) (s.readV y) (spritePixels s (if s.selects1 then wb * rows else 0) wb rows)
  else Drawing.start s.p2

/-- The state after `Composite(wb, rows)` when every address can be read (R162). -/
def composited (x y : Reg) (wb rows : Nat) (s : State) : State :=
  let d1 := drawing1 x y wb rows s
  let d2 := drawing2 x y wb rows s
  State.writeFlag { s with p1 := d1.plane, p2 := d2.plane, dirty := s.dirty || d1.changed || d2.changed }
    (d1.coll || d2.coll)

/-- `Composite(wb, rows)` (R162): all addresses are checked before any pixel changes. -/
def composite (x y : Reg) (wb rows : Nat) (s : State) : Host.Outcome State Fault Refusal :=
  checked (s.checkReads (s.selectedCount * (wb * rows))) s (composited x y wb rows s)

/-- R160: both planes, whatever is selected. -/
def execCls (s : State) : Host.Outcome State Fault Refusal :=
  complete { s with p1 := Plane.blank, p2 := Plane.blank, dirty := true }

/-- R161. -/
def execPlane (m : BitVec 2) (s : State) : Host.Outcome State Fault Refusal := complete { s with planes := m }

/-- R163. -/
def execDrw (x y : Reg) (n : BitVec 4) (s : State) : Host.Outcome State Fault Refusal := composite x y 1 n.toNat s

/-- R164. -/
def execDrwx (x y : Reg) (s : State) : Host.Outcome State Fault Refusal := composite x y 2 16 s

end Sys2Proof.Machine
end

