-- ==== Sys2Proof/Machine/Keys.lean ====
section
/-! DEFINITION. Keys: `SKP`, `SKNP`, `LDK` (`45_keys.md`). -/

namespace Sys2Proof.Machine

/-- R190. -/
def execSkp (x : Reg) (s : State) : Host.Outcome State Fault Refusal := complete (s.skipIf (s.keyPressed x))

/-- R191. -/
def execSknp (x : Reg) (s : State) : Host.Outcome State Fault Refusal := complete (s.skipIf (!s.keyPressed x))

/-- R192: with no release edge latched the advance is undone, so that the next step fetches the same instruction. -/
def execLdk (x : Reg) (s : State) : Host.Outcome State Fault Refusal :=
  if s.released = 0 then complete (s.setPc (s.pc - 2))
  else complete (s.writeV x (BitVec.ofNat 8 (lsbIndex s.released)))

end Sys2Proof.Machine
end

