-- ==== Sys2Proof/Machine/MemoryIndex.lean ====
section
/-! DEFINITION. Index register and memory transfer: `LDI`, `LDL`, `ADDI`, `LDF`, `BCD`, `STM`, `LDM`, `STR`, `LDR`
(`42_memory_index.md`). Every multi-byte access checks all of its addresses before it changes anything (R150). -/

namespace Sys2Proof.Machine

/-- R140. -/
def execLdi (nnn : BitVec 12) (s : State) : Host.Outcome State Fault Refusal :=
  complete (s.setI (nnn.setWidth 16))

/-- R141: the second word is fetched at the advanced `pc`, which moves past it only when it lies in memory. -/
def execLdl (s : State) : Host.Outcome State Fault Refusal :=
  match s.fetchWord with
  | none => raise .addressOverflow s
  | some nnnn => complete ((s.advance).setI nnnn)

/-- R142: 16-bit wrap-around, no flag. -/
def execAddi (x : Reg) (s : State) : Host.Outcome State Fault Refusal :=
  complete (s.setI (BitVec.ofNat 16 (s.i.toNat + (s.readV x).toNat)))

/-- R143: the whole register is the digit. -/
def execLdf (x : Reg) (s : State) : Host.Outcome State Fault Refusal :=
  if (s.readV x).toNat ≥ s.config.fontGlyphs then raise .invalidInstruction s
  else complete (s.setI (BitVec.ofNat 16 ((s.readV x).toNat * s.config.glyphH)))

/-- R144: hundreds, tens and ones to three ascending addresses; `I` is unchanged. -/
def execBcd (x : Reg) (s : State) : Host.Outcome State Fault Refusal :=
  let n := (s.readV x).toNat
  checked (s.checkWrites 3) s
    (((s.writeByte (s.addrAt 0) (BitVec.ofNat 8 (n / 100))).writeByte (s.addrAt 1)
      (BitVec.ofNat 8 (n / 10 % 10))).writeByte (s.addrAt 2) (BitVec.ofNat 8 (n % 10)))

/-- Store `n` registers from `V[lo]` on and move `I` past them (R146, R148). -/
def storeRange (lo n : Nat) (s : State) : Host.Outcome State Fault Refusal :=
  checked (s.checkWrites n) s ((s.storeRegs lo n).bumpI n)

/-- Load `n` registers from `V[lo]` on and move `I` past the bytes (R147, R149). -/
def loadRange (lo n : Nat) (s : State) : Host.Outcome State Fault Refusal :=
  checked (s.checkReads n) s ((s.loadRegs lo n).bumpI n)

/-- R146. -/
def execStm (x : Reg) (s : State) : Host.Outcome State Fault Refusal := storeRange 0 (x.val + 1) s

/-- R147. -/
def execLdm (x : Reg) (s : State) : Host.Outcome State Fault Refusal := loadRange 0 (x.val + 1) s

/-- R148. -/
def execStr (x y : Reg) (s : State) : Host.Outcome State Fault Refusal :=
  storeRange (rangeLow x y) (rangeCount x y) s

/-- R149. -/
def execLdr (x y : Reg) (s : State) : Host.Outcome State Fault Refusal :=
  loadRange (rangeLow x y) (rangeCount x y) s

end Sys2Proof.Machine
end

