-- ==== Sys2Proof/Machine/TimerAudio.lean ====
section
/-! DEFINITION. Timers, pitch and audio staging: `LDVDT`, `LDDT`, `LDST`, `LDPITCH`, `AUD` (`44_timer_audio.md`). -/

namespace Sys2Proof.Machine

/-- R180. -/
def execLdvdt (x : Reg) (s : State) : Host.Outcome State Fault Refusal := complete (s.writeV x s.dt)

/-- R181. -/
def execLddt (x : Reg) (s : State) : Host.Outcome State Fault Refusal := complete { s with dt := s.readV x }

/-- R182. -/
def execLdst (x : Reg) (s : State) : Host.Outcome State Fault Refusal := complete { s with st := s.readV x }

/-- R183. -/
def execLdpitch (x : Reg) (s : State) : Host.Outcome State Fault Refusal :=
  complete { s with pitch := s.readV x }

/-- The sixteen bytes at `I` (R184). -/
def State.audioBytes (s : State) : Vector Byte 16 := Vector.ofFn fun k => s.readByte (s.addrAt k.val)

/-- R184: `I` is unchanged. -/
def execAud (s : State) : Host.Outcome State Fault Refusal :=
  checked (s.checkReads 16) s { s with audio := s.audioBytes }

end Sys2Proof.Machine
end

