-- ==== Sys2Proof/Machine/Dispatch.lean ====
section
/-! DEFINITION. One arm per instruction of the opcode map (`30_encoding.md` R73, R77). -/

namespace Sys2Proof.Machine

/-- The rule of the decoded row, run on the state whose `pc` is already advanced (R71, R74). -/
def exec (i : Instr) (s : State) : Host.Outcome State Fault Refusal :=
  match i with
  | .cls => Sys2Proof.Machine.execCls s
  | .ret => Sys2Proof.Machine.execRet s
  | .jp nnn => Sys2Proof.Machine.execJp nnn s
  | .call nnn => Sys2Proof.Machine.execCall nnn s
  | .sei x nn => Sys2Proof.Machine.execSei x nn s
  | .snei x nn => Sys2Proof.Machine.execSnei x nn s
  | .ser x y => Sys2Proof.Machine.execSer x y s
  | .str x y => Sys2Proof.Machine.execStr x y s
  | .ldr x y => Sys2Proof.Machine.execLdr x y s
  | .ldn x nn => Sys2Proof.Machine.execLdn x nn s
  | .addn x nn => Sys2Proof.Machine.execAddn x nn s
  | .mov x y => Sys2Proof.Machine.execMov x y s
  | .or x y => Sys2Proof.Machine.execOr x y s
  | .and x y => Sys2Proof.Machine.execAnd x y s
  | .xor x y => Sys2Proof.Machine.execXor x y s
  | .add x y => Sys2Proof.Machine.execAdd x y s
  | .sub x y => Sys2Proof.Machine.execSub x y s
  | .shr x y => Sys2Proof.Machine.execShr x y s
  | .subn x y => Sys2Proof.Machine.execSubn x y s
  | .shl x y => Sys2Proof.Machine.execShl x y s
  | .sner x y => Sys2Proof.Machine.execSner x y s
  | .ldi nnn => Sys2Proof.Machine.execLdi nnn s
  | .jp0 nnn => Sys2Proof.Machine.execJp0 nnn s
  | .drwx x y => Sys2Proof.Machine.execDrwx x y s
  | .drw x y n => Sys2Proof.Machine.execDrw x y n s
  | .skp x => Sys2Proof.Machine.execSkp x s
  | .sknp x => Sys2Proof.Machine.execSknp x s
  | .ldl => Sys2Proof.Machine.execLdl s
  | .plane m => Sys2Proof.Machine.execPlane m s
  | .aud => Sys2Proof.Machine.execAud s
  | .ldvdt x => Sys2Proof.Machine.execLdvdt x s
  | .ldk x => Sys2Proof.Machine.execLdk x s
  | .lddt x => Sys2Proof.Machine.execLddt x s
  | .ldst x => Sys2Proof.Machine.execLdst x s
  | .addi x => Sys2Proof.Machine.execAddi x s
  | .ldf x => Sys2Proof.Machine.execLdf x s
  | .bcd x => Sys2Proof.Machine.execBcd x s
  | .ldpitch x => Sys2Proof.Machine.execLdpitch x s
  | .stm x => Sys2Proof.Machine.execStm x s
  | .ldm x => Sys2Proof.Machine.execLdm x s

end Sys2Proof.Machine
end

