-- ==== Sys2Proof/Machine/Step.lean ====
section
/-! DEFINITION. The `step` command (`30_encoding.md` R74, `50_host_interface.md` R204): fetch check, fetch, advance,
decode, execute, latch clear. -/

namespace Sys2Proof.Machine

/-- The fetched word run on the advanced state: decode, and the row's rule or `InvalidInstruction` (R73, R86). -/
def execWord (w : Word) (s : State) : Host.Outcome State Fault Refusal :=
  match decode w with
  | .ok i => exec i s
  | .error _ => raise .invalidInstruction s

/-- One `step` (R74). -/
def step (s : State) : Host.Outcome State Fault Refusal :=
  match s.fetchWord with
  | none => endOfStep (raise .addressOverflow s)
  | some w => endOfStep (execWord w s.advance)

/-- The state with one instruction, and zeros above its bits, stored at `pc`, where `step` fetches. -/
def State.withFetchWord (s : State) (nbits w : Nat) : State :=
  s.placeInstruction (BitVec.ofNat 16 (w % 2 ^ nbits)) (BitVec.ofNat 16 (w % 2 ^ nbits / 65536))

end Sys2Proof.Machine
end

