-- ==== Sys2Proof/Machine/Commands.lean ====
section
/-! DEFINITION. The host commands (`50_host_interface.md` R200), the block's only inputs, and sequences of them
(R205). `step` is the instruction step of `Machine/Step.lean`; the others are here. -/

namespace Sys2Proof.Machine

/-- A host command with its arguments (R200); key numbers and offsets are any non-negative integers. -/
inductive Command where
  | reset
  | loadRom (bytes : List Byte)
  | writeRom (bytes : List Byte) (offset : Nat)
  | step
  | tick
  | keyDown (k : Nat)
  | keyUp (k : Nat)
  | frameAck
deriving DecidableEq, Repr

/-- R201: every element of the state is zeroed, the configuration is untouched. -/
def State.resetCommand (s : State) : State := State.resetWith s.config

/-- R202: the size is checked first and a failed load changes nothing; a successful one includes a reset. -/
def State.loadRom (s : State) (bytes : List Byte) : State :=
  if bytes.length > s.config.memSize then s.setResult (.error .romTooLarge)
  else { s.resetCommand with mem := memWriteBytes [] 0 bytes, result := .ok }

/-- R203. -/
def State.writeRom (s : State) (bytes : List Byte) (offset : Nat) : State :=
  if offset + bytes.length > s.config.memSize then s.setResult (.error .romTooLarge)
  else { s with mem := memWriteBytes s.mem offset bytes, result := .ok }

/-- One count down, floored at 0 (R206). -/
def countDown (b : Byte) : Byte := if b.toNat > 0 then b - 1 else b

/-- R206. -/
def State.tick (s : State) : State := { s with dt := countDown s.dt, st := countDown s.st }

/-- `m[k] <- 1`. -/
def setBit (m : BitVec 16) (k : Nat) : BitVec 16 := m ||| (1#16 <<< k)

/-- `m[k] <- 0`. -/
def clearBit (m : BitVec 16) (k : Nat) : BitVec 16 := m &&& ~~~(1#16 <<< k)

/-- R207. -/
def State.keyDown (s : State) (k : Nat) : State :=
  if k ≤ 15 then { s with pressed := setBit s.pressed k, released := clearBit s.released k } else s

/-- R208. -/
def State.keyUp (s : State) (k : Nat) : State :=
  if k ≤ 15 then { s with pressed := clearBit s.pressed k, released := setBit s.released k } else s

/-- R209. -/
def State.frameAck (s : State) : State := { s with dirty := false }

/-- One command, run to completion (R200). -/
def command (c : Command) (s : State) : Host.Outcome State Fault Refusal :=
  match c with
  | .reset => .next s.resetCommand
  | .loadRom bytes => .next (s.loadRom bytes)
  | .writeRom bytes offset => .next (s.writeRom bytes offset)
  | .step => step s
  | .tick => .next s.tick
  | .keyDown k => .next (s.keyDown k)
  | .keyUp k => .next (s.keyUp k)
  | .frameAck => .next s.frameAck

/-- A finite sequence of commands, each on the state the one before it left (R205). -/
def runCommands : List Command → State → Host.Outcome State Fault Refusal
  | [], s => .next s
  | c :: cs, s =>
    match command c s with
    | .next t => runCommands cs t
    | .fault r => .fault r
    | .refused r => .refused r

/-- The number of a result code (R221). -/
def resultCode : Result → Nat
  | .ok => 0
  | .error .nullContext => 1
  | .error .romTooLarge => 2
  | .error .invalidInstruction => 3
  | .error .addressOverflow => 4
  | .error .addressUnderflow => 5
  | .error .stackOverflow => 6
  | .error .stackUnderflow => 7

end Sys2Proof.Machine
end

