-- ==== Sys2Proof/Safety.lean ====
section
/-! DEFINITION. The terms statements use: the parts of the state and what stays unchanged, addresses that can be read
or written, an error reported without effect, the sprite as a set of pixels, and the invariant of the block. -/

namespace Sys2Proof.Machine

/-- The parts of the state (R20), one for each register, stack entry, audio byte and stored byte. The configuration
is a part too; the result code is not, since it is an output and every step and load writes it. -/
inductive Part where
  | reg (r : Reg)
  | pc
  | index
  | depth
  | stackSlot (k : Fin 16)
  | dt
  | st
  | pitch
  | planes
  | dirty
  | plane1
  | plane2
  | audio (k : Fin 16)
  | pressed
  | released
  | byte (offset : Nat)
  | config
deriving DecidableEq, Repr

/-- The part holds the same value in both states; a stored byte is compared by reading it. -/
def Part.same (s t : State) : Part → Prop
  | .reg r => t.readV r = s.readV r
  | .pc => t.pc = s.pc
  | .index => t.i = s.i
  | .depth => t.sp = s.sp
  | .stackSlot k => t.stack[k] = s.stack[k]
  | .dt => t.dt = s.dt
  | .st => t.st = s.st
  | .pitch => t.pitch = s.pitch
  | .planes => t.planes = s.planes
  | .dirty => t.dirty = s.dirty
  | .plane1 => t.p1 = s.p1
  | .plane2 => t.p2 = s.p2
  | .audio k => t.audio[k] = s.audio[k]
  | .pressed => t.pressed = s.pressed
  | .released => t.released = s.released
  | .byte o => memRead t.mem o = memRead s.mem o
  | .config => t.config = s.config

/-- `t` differs from `s` at most in the parts listed (and in the result code). -/
def State.unchangedBut (s : State) (parts : List Part) (t : State) : Prop := ∀ p, p ∉ parts → p.same s t

/-- The outcome reports the error and changes nothing (R226, at the level of an instruction's rule). -/
def State.failsWith (s : State) (o : Host.Outcome State Fault Refusal) (e : Error) : Prop :=
  ∃ t, o = .next t ∧ t.result = .error e ∧ s.unchangedBut [] t

/-- A data read of the logical address succeeds: a font byte or a stored byte (R53, R54). -/
def State.canRead (s : State) (a : Word) : Prop :=
  a.toNat < s.config.fontSize ∨ (s.config.reserved ≤ a.toNat ∧ a.toNat < s.config.logicalTop)

/-- A data write of the logical address succeeds: a stored byte (R53, R55). -/
def State.canWrite (s : State) (a : Word) : Prop :=
  s.config.reserved ≤ a.toNat ∧ a.toNat < s.config.logicalTop

/-- The error of a data access that fails (R54, R55). -/
def State.accessError (s : State) (a : Word) : Error :=
  if a.toNat < s.config.reserved then .addressUnderflow else .addressOverflow

/-- The stored bytes of `n` data addresses at `I`, as parts. -/
def State.bytesAt (s : State) (n : Nat) : List Part :=
  (List.range n).map fun k => .byte (s.storedOffset (s.addrAt k))

/-- The sprite whose first byte is byte `base` of the access at `I`, drawn with its origin at column `x0` and row
`y0`, has a set bit at the pixel: the pixel's distances from the origin, around the edges, lie in the sprite (R162). -/
def State.spriteBit (s : State) (base wb rows : Nat) (x0 y0 : Byte) (px : Fin 128) (py : Fin 64) : Bool :=
  let dx := (px.val + 128 - x0.toNat % 128) % 128
  let dy := (py.val + 64 - y0.toNat % 64) % 64
  decide (dx < 8 * wb) && decide (dy < rows) &&
    (s.readByte (s.addrAt (base + dy * wb + dx / 8))).getLsbD (7 - dx % 8)

/-- The pixel of plane 1 that a draw toggles: plane 1 is selected and the first block has the bit (R162). -/
def State.toggles1 (s : State) (x y : Reg) (wb rows : Nat) (px : Fin 128) (py : Fin 64) : Bool :=
  s.selects1 && s.spriteBit 0 wb rows (s.readV x) (s.readV y) px py

/-- The pixel of plane 2 that a draw toggles: plane 2 is selected and its block has the bit; the block follows plane
1's if plane 1 is selected too (R162). -/
def State.toggles2 (s : State) (x y : Reg) (wb rows : Nat) (px : Fin 128) (py : Fin 64) : Bool :=
  s.selects2 && s.spriteBit (if s.selects1 then wb * rows else 0) wb rows (s.readV x) (s.readV y) px py

/-- The invariant of the block: the configuration meets R6's constraints, memory is in the model's canonical form (log
entry 19) and inside its size (R50), `pc` is at most `MEM_SIZE + 2` (R22, R23), and every stack entry is at most
`MEM_SIZE` (an advanced `pc`, R25). -/
structure State.Inv (s : State) : Prop where
  config : s.config.wf
  memory : Memory.wf s.mem
  inMemory : ∀ c ∈ s.mem, c.1 < s.config.memSize
  pc : s.pc.toNat ≤ s.config.memSize + 2
  stack : ∀ k : Fin 16, s.stack[k].toNat ≤ s.config.memSize

end Sys2Proof.Machine
end

