-- ==== Sys2Proof/Certificates/Slice0/Obligations.lean ====
section
/-! DEFINITION. The statements for the provers. In a statement about `exec`, `s` is the state whose `pc` is already
advanced (`30_encoding.md` R71). "Decision D<n>" names the spec's own choice in `92_eei_decisions.md`; a statement
that rests on one is `derived`. The result code in the state is the model's own field (log entry 2). -/

open Sys2Proof Sys2Proof.Machine

/-! ### Encoding -/

/-- Decoding the word of a well-formed instruction gives the instruction back, with every operand at every value
(R75, R77; opcode numbers by decision D6). -/
def Obligations.DecodeOfEncode : Prop := ∀ i : Instr, i.wf = true → decode (encode i) = .ok i

/-- A word that decodes is the word of the instruction it decodes to, which is well-formed: no two words mean the same
instruction (R73, R77; decision D6). -/
def Obligations.EncodeOfDecode : Prop :=
  ∀ (w : Word) (i : Instr), decode w = .ok i → i.wf = true ∧ encode i = w

/-- The two-level dispatch of R78 agrees with the flat opcode map of R77 on every word: it gives the instruction of
the first row the word matches, and rejects exactly the words that match no row (decision D6). -/
def Obligations.DecodeSelectsFirstMatchingRow : Prop :=
  ∀ w : Word, (match decode w with
    | .ok i => some i.mnemonic
    | .error _ => none) = (firstRow w).map OpcodeRow.mnemonic

/-- Words written out from the encodings of R77 decode to what they stand for, and words of R86 are rejected. -/
def Obligations.SpecWordsDecode : Prop :=
  decode 0x00EE = .ok .ret ∧ decode 0x1204 = .ok (.jp 0x204) ∧ decode 0x5312 = .ok (.str 3 1) ∧
  decode 0x8126 = .ok (.shr 1 2) ∧ decode 0xA300 = .ok (.ldi 0x300) ∧ decode 0xD125 = .ok (.drw 1 2 5) ∧
  decode 0xD010 = .ok (.drwx 0 1) ∧ decode 0xE09E = .ok (.skp 0) ∧ decode 0xF000 = .ok .ldl ∧
  decode 0xF301 = .ok (.plane 3) ∧ decode 0xF518 = .ok (.ldst 5) ∧
  decode 0x0000 = .error (.noRow 0x0000) ∧ decode 0xF401 = .error (.noRow 0xF401) ∧
  decode 0xC0FF = .error (.noRow 0xC0FF)

/-! ### The step -/

/-- The whole step: fetch check, big-endian fetch, advance, decode, the row's rule, and the latch clear at the end on
every path (R74). `exec` runs on the state whose `pc` is advanced; the model holds
the result code a step returns in the field `result` (log entry 2). -/
def Obligations.StepFollowsItsAlgorithm : Prop :=
  ∀ s : State,
    let w : Word := BitVec.ofNat 16 ((memRead s.mem s.pc.toNat).toNat * 256 + (memRead s.mem (s.pc.toNat + 1)).toNat)
    let a : State := { s with pc := s.pc + 2 }
    (s.pc.toNat + 1 ≥ s.config.memSize →
      step s = .next { s with released := 0, result := .error .addressOverflow }) ∧
    (s.pc.toNat + 1 < s.config.memSize →
      (∀ e, decode w = .error e →
        step s = .next { a with released := 0, result := .error .invalidInstruction }) ∧
      (∀ i t, decode w = .ok i → exec i a = .next t → step s = .next { t with released := 0 }))

/-- When the bytes at `pc` lie in memory and decode to an instruction, the step is that instruction's rule on the state
with `pc` moved past the word, followed by the clear of the release edges (R71, R73, R74). -/
def Obligations.StepRunsDecodedInstruction : Prop :=
  ∀ (s : State) (w : Word) (i : Instr), s.fetchWord = some w → decode w = .ok i →
    step s = endOfStep (exec i { s with pc := s.pc + 2 })

/-- A step whose instruction word does not lie wholly in memory fails with `AddressOverflow` and changes nothing but the
release edges, which are cleared (R70). -/
def Obligations.FetchPastMemoryFails : Prop :=
  ∀ s : State, s.pc.toNat + 1 ≥ s.config.memSize →
    ∃ t, step s = .next t ∧ t.result = .error .addressOverflow ∧ s.unchangedBut [.released] t ∧ t.released = 0

/-- Every step answers a next state, from every state, and its result code is `Ok` or one of the five errors a step
can return; the machine never faults and never refuses (R204, R221, R222; that an error is a next state is the model's
choice, log entry 1). -/
def Obligations.StepAlwaysAnswersNext : Prop :=
  ∀ s : State, ∃ t, step s = .next t ∧
    t.result ∈ [Result.ok, .error .invalidInstruction, .error .addressOverflow, .error .addressUnderflow,
      .error .stackOverflow, .error .stackUnderflow]

/-- A failing step is precise: it changes at most `pc` and the release edges; `pc` is past the instruction word, or
unmoved when the fetch itself failed (R226; no partial effect is decision D17). -/
def Obligations.FailedStepIsPrecise : Prop :=
  ∀ (s t : State) (e : Error), step s = .next t → t.result = .error e →
    s.unchangedBut [.pc, .released] t ∧ t.released = 0 ∧
      ((s.pc.toNat + 1 < s.config.memSize ∧ t.pc = s.pc + 2) ∨
       (s.pc.toNat + 1 ≥ s.config.memSize ∧ t.pc = s.pc ∧ e = .addressOverflow))

/-! ### Invariant and reset -/

/-- The state after reset meets the invariant (the default sizes are decision D1; the canonical form of memory is the
model's own, log entry 19). -/
def Obligations.ResetMeetsInvariant : Prop := State.reset.Inv

/-- Every step keeps the invariant: the configuration is legal, no byte outside the memory's size is stored, `pc` never
passes `MEM_SIZE + 2` and so never wraps, and every stack entry is an offset up to `MEM_SIZE` (R22, R23, R25, R50;
decision D32), and the list that holds memory keeps its canonical form, which is no rule of the spec but the model's own
choice (log entry 19). -/
def Obligations.StepKeepsInvariant : Prop :=
  ∀ s t : State, s.Inv → step s = .next t → t.Inv

/-- Every finite sequence of host commands, in any order, runs to the end and keeps the invariant (R205, R211;
decision D21; the canonical form of memory in the invariant is the model's own, log entry 19). -/
def Obligations.CommandSequencesKeepInvariant : Prop :=
  ∀ (cs : List Command) (s : State), s.Inv → ∃ t, runCommands cs s = .next t ∧ t.Inv

/-- The `reset` command zeroes every element of the state, leaves the configuration, and is idempotent (R201). -/
def Obligations.ResetZeroesAllState : Prop :=
  ∀ s : State, ∃ t, command .reset s = .next t ∧ command .reset t = .next t ∧ t.config = s.config ∧
    (∀ r, t.readV r = 0) ∧ t.pc = 0 ∧ t.i = 0 ∧ t.sp = 0 ∧ (∀ k : Fin 16, t.stack[k] = 0) ∧
    t.dt = 0 ∧ t.st = 0 ∧ t.pitch = 0 ∧ t.planes = 0 ∧ t.dirty = false ∧
    (∀ px py, planeGet t.p1 px py = false ∧ planeGet t.p2 px py = false) ∧
    (∀ k : Fin 16, t.audio[k] = 0) ∧ t.pressed = 0 ∧ t.released = 0 ∧ (∀ o, memRead t.mem o = 0)

/-! ### Memory -/

/-- A read returns the most recent write to that offset and no other offset is touched; the canonical form is kept
(R62 rule 3; the list form of memory is the model's, log entry 19). -/
def Obligations.MemoryReadAfterWrite : Prop :=
  ∀ (m : Memory) (o : Nat) (b : Byte),
    (∀ o', memRead (memWrite m o b) o' = if o' = o then b else memRead m o') ∧
    (Memory.wf m → Memory.wf (memWrite m o b))

/-- Memories in canonical form that read the same at every offset are the same data (log entry 19). -/
def Obligations.CanonicalMemoryIsDeterminedByItsBytes : Prop :=
  ∀ m n : Memory, Memory.wf m → Memory.wf n → (∀ o, memRead m o = memRead n o) → m = n

/-! ### Rules of the whole machine, over all instructions -/

/-- Only `BCD`, `STM` and `STR` change a stored byte, and only `CALL` and `RET` change the call stack (R50, R51, R25). -/
def Obligations.OnlyStoresWriteMemoryOnlyCallsTheStack : Prop :=
  ∀ (i : Instr) (s t : State), exec i s = .next t →
    (i.mnemonic ∉ ["BCD", "STM", "STR"] → ∀ o, memRead t.mem o = memRead s.mem o) ∧
    (i.mnemonic ∉ ["CALL", "RET"] → t.sp = s.sp ∧ ∀ k : Fin 16, t.stack[k] = s.stack[k])

/-- Only `CLS`, `DRW` and `DRWX` change a pixel, only `PLANE` the mask, and no instruction clears the dirty flag (R28,
R29, R30). -/
def Obligations.OnlyDisplayInstructionsTouchTheDisplay : Prop :=
  ∀ (i : Instr) (s t : State), exec i s = .next t →
    (i.mnemonic ∉ ["CLS", "DRW", "DRWX"] →
      t.dirty = s.dirty ∧ ∀ px py, planeGet t.p1 px py = planeGet s.p1 px py ∧ planeGet t.p2 px py = planeGet s.p2 px py) ∧
    (i.mnemonic ≠ "PLANE" → t.planes = s.planes) ∧
    (s.dirty = true → t.dirty = true)

/-- Each of the timers, the pitch register and the audio buffer is written by its one instruction only; no instruction
changes the pressed keys, the release edges or the configuration (R26, R27, R31, R32, R33, R238). -/
def Obligations.SpecialRegistersHaveOneWriter : Prop :=
  ∀ (i : Instr) (s t : State), exec i s = .next t →
    (i.mnemonic ≠ "LDDT" → t.dt = s.dt) ∧ (i.mnemonic ≠ "LDST" → t.st = s.st) ∧
    (i.mnemonic ≠ "LDPITCH" → t.pitch = s.pitch) ∧
    (i.mnemonic ≠ "AUD" → ∀ k : Fin 16, t.audio[k] = s.audio[k]) ∧
    t.pressed = s.pressed ∧ t.released = s.released ∧ t.config = s.config

/-- `I` is written only by the eight instructions R24 lists; `pc` moves beyond the advance only by the instructions
of R23's table. -/
def Obligations.IndexAndPcWriters : Prop :=
  ∀ (i : Instr) (s t : State), exec i s = .next t →
    (i.mnemonic ∉ ["LDI", "LDL", "ADDI", "LDF", "STM", "LDM", "STR", "LDR"] → t.i = s.i) ∧
    (i.mnemonic ∉ ["LDL", "SEI", "SNEI", "SER", "SNER", "SKP", "SKNP", "JP", "CALL", "JP0", "RET", "LDK"] →
      t.pc = s.pc)

/-- `VF` as a side effect: an instruction outside R35's table changes `V[15]` only if it names `VF` as a destination
(as `X`, or inside the range of a load), and one inside it leaves 0 or 1 when it completes (R35). -/
def Obligations.FlagRegisterWriters : Prop :=
  ∀ (i : Instr) (s t : State), exec i s = .next t →
    ((∀ x nn, i = .ldn x nn ∨ i = .addn x nn → x ≠ 15) → (∀ x y, i = .mov x y → x ≠ 15) →
      (∀ x, i = .ldvdt x ∨ i = .ldk x ∨ i = .ldm x → x ≠ 15) → (∀ x y, i = .ldr x y → x ≠ 15 ∧ y ≠ 15) →
      i.mnemonic ∉ ["OR", "AND", "XOR", "ADD", "SUB", "SUBN", "SHR", "SHL", "DRW", "DRWX"] →
      t.readV 15 = s.readV 15) ∧
    (i.mnemonic ∈ ["OR", "AND", "XOR", "ADD", "SUB", "SUBN", "SHR", "SHL", "DRW", "DRWX"] → t.result = .ok →
      t.readV 15 = 0 ∨ t.readV 15 = 1)

/-- A program cannot see the outputs: two states that differ only in the sound timer, the pitch register, the audio
buffer, the dirty flag and the last result code take steps with the same result code to states that differ only in
those (R26, R27, R29, R31, R20). -/
def Obligations.OutputsAreNeverRead : Prop :=
  ∀ (s : State) (st pitch : Byte) (audio : Vector Byte 16) (dirty : Bool) (r : Result), ∃ t u,
    step s = .next t ∧
    step { s with st := st, pitch := pitch, audio := audio, dirty := dirty, result := r } = .next u ∧
    u.result = t.result ∧
    t.unchangedBut ([.st, .pitch, .dirty] ++ (List.finRange 16).map Part.audio) u

/-! ### Control flow -/

/-- `RET` pops the newest entry into `pc`, without translation or check; on the empty stack it fails with
`StackUnderflow` and the depth stays 0 (R100). The popped slot itself is left out of the frame: what it holds is
unobservable (R25). -/
def Obligations.ReturnPopsTheStack : Prop :=
  ∀ s : State,
    (s.sp = 0 → s.failsWith (exec .ret s) .stackUnderflow) ∧
    (∀ k : Fin 16, s.sp.val = k.val + 1 →
      ∃ t, exec .ret s = .next t ∧ t.result = .ok ∧ t.sp.val = k.val ∧ t.pc = s.stack[k] ∧
        s.unchangedBut [.pc, .depth, .stackSlot k] t)

/-- `JP` and `JP0` translate their target, `NNN` and the unreduced sum `NNN + V[0]`: below the reserved size they fail
with `AddressUnderflow`, at or past the top of memory with `AddressOverflow`, else `pc` is the stored offset (R101,
R103, R104; the overflow comparison is decision D2). -/
def Obligations.JumpsTranslateTheirTarget : Prop :=
  ∀ (nnn : BitVec 12) (s : State),
    (∀ i target, (i = Instr.jp nnn ∧ target = nnn.toNat) ∨
        (i = Instr.jp0 nnn ∧ target = nnn.toNat + (s.readV 0).toNat) →
      (target < s.config.reserved → s.failsWith (exec i s) .addressUnderflow) ∧
      (s.config.logicalTop ≤ target → s.config.reserved ≤ target → s.failsWith (exec i s) .addressOverflow) ∧
      (s.config.reserved ≤ target → target < s.config.logicalTop →
        ∃ t, exec i s = .next t ∧ t.result = .ok ∧ t.pc = BitVec.ofNat 16 (target - s.config.reserved) ∧
          s.unchangedBut [.pc] t))

/-- `CALL` pushes the advanced `pc` and jumps; the capacity is tested before the target, and a failing call pushes
nothing (R102; decisions D2, D17, D18). -/
def Obligations.CallPushesAndJumps : Prop :=
  ∀ (nnn : BitVec 12) (s : State),
    (s.sp = 16 → s.failsWith (exec (.call nnn) s) .stackOverflow) ∧
    (∀ k : Fin 16, s.sp.val = k.val →
      (nnn.toNat < s.config.reserved → s.failsWith (exec (.call nnn) s) .addressUnderflow) ∧
      (s.config.logicalTop ≤ nnn.toNat → s.config.reserved ≤ nnn.toNat →
        s.failsWith (exec (.call nnn) s) .addressOverflow) ∧
      (s.config.reserved ≤ nnn.toNat → nnn.toNat < s.config.logicalTop →
        ∃ t, exec (.call nnn) s = .next t ∧ t.result = .ok ∧ t.sp.val = k.val + 1 ∧ t.stack[k] = s.pc ∧
          t.pc = BitVec.ofNat 16 (nnn.toNat - s.config.reserved) ∧
          s.unchangedBut [.pc, .depth, .stackSlot k] t))

/-- A call that completes and a `RET` at any later point where the depth and the pushed entry are as the call left them
bring `pc` back behind the call and the depth back to what it was, whatever else the subroutine did (R100, R102). -/
def Obligations.ReturnUndoesCall : Prop :=
  ∀ (nnn : BitVec 12) (s t u : State) (k : Fin 16), exec (.call nnn) s = .next t → t.result = .ok →
    s.sp.val = k.val → u.sp = t.sp → u.stack[k] = t.stack[k] →
    ∃ v, exec .ret u = .next v ∧ v.result = .ok ∧ v.pc = s.pc ∧ v.sp = s.sp

/-- `SEI`, `SNEI`, `SER` and `SNER` add 2 to `pc` exactly when their condition holds, and change nothing else (R105,
R106, R107, R108). -/
def Obligations.SkipsAddOneInstructionWidth : Prop :=
  ∀ (x y : Reg) (nn : Byte) (s : State),
    (∀ i c, (i = Instr.sei x nn ∧ c = decide (s.readV x = nn)) ∨ (i = Instr.snei x nn ∧ c = decide (s.readV x ≠ nn)) ∨
        (i = Instr.ser x y ∧ c = decide (s.readV x = s.readV y)) ∨
        (i = Instr.sner x y ∧ c = decide (s.readV x ≠ s.readV y)) →
      ∃ t, exec i s = .next t ∧ t.result = .ok ∧ t.pc = (if c = true then s.pc + 2 else s.pc) ∧
        s.unchangedBut [.pc] t)

/-! ### Keys -/

/-- `SKP` skips exactly when `V[X]` is at most 15 and that key is pressed, `SKNP` exactly when not; nothing else changes
(R190, R191; a number above 15 is never pressed by decision D16). -/
def Obligations.KeySkipsTestThePressedMask : Prop :=
  ∀ (x : Reg) (s : State),
    let down : Prop := (s.readV x).toNat ≤ 15 ∧ s.pressed.getLsbD (s.readV x).toNat = true
    (∃ t, exec (.skp x) s = .next t ∧ t.result = .ok ∧ s.unchangedBut [.pc] t ∧
      (down → t.pc = s.pc + 2) ∧ (¬ down → t.pc = s.pc)) ∧
    (∃ t, exec (.sknp x) s = .next t ∧ t.result = .ok ∧ s.unchangedBut [.pc] t ∧
      (down → t.pc = s.pc) ∧ (¬ down → t.pc = s.pc + 2))

/-- `LDK` with no release edge latched undoes the advance and changes nothing else; with one latched it stores the number
of the lowest (R192). -/
def Obligations.WaitForKeyPollsTheReleaseEdges : Prop :=
  ∀ (x : Reg) (s : State),
    (s.released = 0 →
      ∃ t, exec (.ldk x) s = .next t ∧ t.result = .ok ∧ t.pc = s.pc - 2 ∧ s.unchangedBut [.pc] t) ∧
    (∀ k : Fin 16, s.released.getLsbD k.val = true → (∀ j : Fin 16, j < k → s.released.getLsbD j.val = false) →
      ∃ t, exec (.ldk x) s = .next t ∧ t.result = .ok ∧ t.readV x = BitVec.ofNat 8 k.val ∧
        s.unchangedBut [.reg x] t)

/-- The source's property S6: `key_up(k)` with no edge latched before, then a step of `LDK Vx`, stores `k` on that very
step and leaves every edge clear (R192, R208, R74). -/
def Obligations.KeyReleaseEndsTheWait : Prop :=
  ∀ (s : State) (x : Reg) (k : Fin 16) (w : Word), s.released = 0 → s.fetchWord = some w →
    decode w = .ok (.ldk x) →
    ∃ t, runCommands [.keyUp k.val, .step] s = .next t ∧ t.result = .ok ∧ t.readV x = BitVec.ofNat 8 k.val ∧
      t.pc = s.pc + 2 ∧ t.released = 0 ∧ s.unchangedBut [.reg x, .pc, .pressed, .released] t

/-! ### Arithmetic and logic -/

/-- `LDN` loads its immediate and `ADDN` adds it modulo 256, neither with a flag (R120, R121). -/
def Obligations.ImmediateLoadAndAdd : Prop :=
  ∀ (x : Reg) (nn : Byte) (s : State),
    (∃ t, exec (.ldn x nn) s = .next t ∧ t.result = .ok ∧ t.readV x = nn ∧ s.unchangedBut [.reg x] t) ∧
    (∃ t, exec (.addn x nn) s = .next t ∧ t.result = .ok ∧
      (t.readV x).toNat = ((s.readV x).toNat + nn.toNat) % 256 ∧ s.unchangedBut [.reg x] t)

/-- `MOV` copies a register and `LDVDT` reads the delay timer into one, without a flag (R122, R180; both instructions
exist by decision D7). -/
def Obligations.RegisterCopyAndTimerRead : Prop :=
  ∀ (x y : Reg) (s : State),
    (∃ t, exec (.mov x y) s = .next t ∧ t.result = .ok ∧ t.readV x = s.readV y ∧ s.unchangedBut [.reg x] t) ∧
    (∃ t, exec (.ldvdt x) s = .next t ∧ t.result = .ok ∧ t.readV x = s.dt ∧ s.unchangedBut [.reg x] t)

/-- `OR`, `AND` and `XOR` write their destination bit by bit and then zero `VF`, also when `VF` is the destination
(R123, R124, R125; the order of the writes is decision D8). -/
def Obligations.LogicWritesItsResultThenZeroesTheFlag : Prop :=
  ∀ (x y : Reg) (s : State) (i : Instr) (f : Bool → Bool → Bool),
    (i = .or x y ∧ f = (fun a b => a || b)) ∨ (i = .and x y ∧ f = (fun a b => a && b)) ∨
      (i = .xor x y ∧ f = (fun a b => a ^^ b)) →
    ∃ t, exec i s = .next t ∧ t.result = .ok ∧ t.readV 15 = 0 ∧
      (x ≠ 15 → ∀ k, (t.readV x).getLsbD k = f ((s.readV x).getLsbD k) ((s.readV y).getLsbD k)) ∧
      s.unchangedBut [.reg x, .reg 15] t

/-- `ADD` writes the sum modulo 256 and then the carry of the unwrapped sum, which remains when `VF` is the destination
(R126; the order of the writes is decision D8). -/
def Obligations.AddWritesSumThenCarry : Prop :=
  ∀ (x y : Reg) (s : State),
    let a := (s.readV x).toNat
    let b := (s.readV y).toNat
    ∃ t, exec (.add x y) s = .next t ∧ t.result = .ok ∧ t.readV 15 = (if a + b > 255 then 1 else 0) ∧
      (x ≠ 15 → (t.readV x).toNat = (a + b) % 256) ∧ s.unchangedBut [.reg x, .reg 15] t

/-- `SUB` writes `X - Y` and `SUBN` writes `Y - X` to `V[X]`, modulo 256, and then the not-borrow, which remains when
`VF` is the destination (R127, R129; the order of the writes is decision D8). -/
def Obligations.SubtractsWriteDifferenceThenNotBorrow : Prop :=
  ∀ (x y : Reg) (s : State) (i : Instr) (a b : Nat),
    (i = .sub x y ∧ a = (s.readV x).toNat ∧ b = (s.readV y).toNat) ∨
      (i = .subn x y ∧ a = (s.readV y).toNat ∧ b = (s.readV x).toNat) →
    ∃ t, exec i s = .next t ∧ t.result = .ok ∧ t.readV 15 = (if a ≥ b then 1 else 0) ∧
      (x ≠ 15 → (t.readV x).toNat = (if a ≥ b then a - b else a + 256 - b)) ∧ s.unchangedBut [.reg x, .reg 15] t

/-- In the default mode `SHR` and `SHL` shift `V[X]` by one bit, whatever `Y` is, and the bit that is lost is the flag,
written last (R128, R130; the order of the writes is decision D8). -/
def Obligations.ShiftsByOneInDefaultMode : Prop :=
  ∀ (x y : Reg) (s : State), s.config.shiftByVy = false →
    let a := s.readV x
    (∃ t, exec (.shr x y) s = .next t ∧ t.result = .ok ∧ t.readV 15 = (if a.getLsbD 0 then 1 else 0) ∧
      (x ≠ 15 → (t.readV x).toNat = a.toNat / 2) ∧ s.unchangedBut [.reg x, .reg 15] t) ∧
    (∃ t, exec (.shl x y) s = .next t ∧ t.result = .ok ∧ t.readV 15 = (if a.getLsbD 7 then 1 else 0) ∧
      (x ≠ 15 → (t.readV x).toNat = a.toNat * 2 % 256) ∧ s.unchangedBut [.reg x, .reg 15] t)

/-- In the variable mode `SHR` and `SHL` shift `V[X]` by the value of `V[Y]`, a count of 8 or more giving 0; the flag,
written last, is the last bit shifted out, 0 for a count of 0 or above 8 (R128, R130; the flag is decision D9, the order
of the writes D8). -/
def Obligations.ShiftsByRegisterInVariableMode : Prop :=
  ∀ (x y : Reg) (s : State), s.config.shiftByVy = true →
    let a := s.readV x
    let n := (s.readV y).toNat
    (∃ t, exec (.shr x y) s = .next t ∧ t.result = .ok ∧
      t.readV 15 = (if 1 ≤ n ∧ n ≤ 8 ∧ a.getLsbD (n - 1) = true then 1 else 0) ∧
      (x ≠ 15 → (t.readV x).toNat = a.toNat / 2 ^ n) ∧ s.unchangedBut [.reg x, .reg 15] t) ∧
    (∃ t, exec (.shl x y) s = .next t ∧ t.result = .ok ∧
      t.readV 15 = (if 1 ≤ n ∧ n ≤ 8 ∧ a.getLsbD (8 - n) = true then 1 else 0) ∧
      (x ≠ 15 → (t.readV x).toNat = a.toNat * 2 ^ n % 256) ∧ s.unchangedBut [.reg x, .reg 15] t)

/-! ### Index register and memory transfer -/

/-- `LDI` loads its zero-extended immediate into `I` unchanged, with no check (R140; that `I` holds a logical address is
decision D3). -/
def Obligations.IndexLoadStoresTheImmediate : Prop :=
  ∀ (nnn : BitVec 12) (s : State),
    ∃ t, exec (.ldi nnn) s = .next t ∧ t.result = .ok ∧ t.i.toNat = nnn.toNat ∧ s.unchangedBut [.index] t

/-- `ADDI` adds a register to `I` modulo 65536 and writes no flag (R142). -/
def Obligations.IndexAddWraps : Prop :=
  ∀ (x : Reg) (s : State),
    ∃ t, exec (.addi x) s = .next t ∧ t.result = .ok ∧
      t.i.toNat = (s.i.toNat + (s.readV x).toNat) % 65536 ∧ s.unchangedBut [.index] t

/-- `LDL` loads the big-endian word at the advanced `pc` into `I` and moves `pc` past it; if that word does not lie in
memory it fails with `AddressOverflow` and changes nothing (R141; decision D24). -/
def Obligations.LongIndexLoadFetchesItsImmediate : Prop :=
  ∀ s : State,
    (s.pc.toNat + 1 ≥ s.config.memSize → s.failsWith (exec .ldl s) .addressOverflow) ∧
    (s.pc.toNat + 1 < s.config.memSize →
      ∃ t, exec .ldl s = .next t ∧ t.result = .ok ∧ t.pc = s.pc + 2 ∧
        t.i.toNat = (memRead s.mem s.pc.toNat).toNat * 256 + (memRead s.mem (s.pc.toNat + 1)).toNat ∧
        s.unchangedBut [.pc, .index] t)

/-- `LDF` puts the address of the glyph of the digit in `V[X]` into `I`; a value that has no glyph fails with
`InvalidInstruction` (R143; decisions D5, D31). -/
def Obligations.FontAddressIsRangeChecked : Prop :=
  ∀ (x : Reg) (s : State),
    ((s.readV x).toNat ≥ s.config.fontGlyphs → s.failsWith (exec (.ldf x) s) .invalidInstruction) ∧
    ((s.readV x).toNat < s.config.fontGlyphs →
      ∃ t, exec (.ldf x) s = .next t ∧ t.result = .ok ∧
        t.i = BitVec.ofNat 16 ((s.readV x).toNat * s.config.glyphH) ∧ s.unchangedBut [.index] t)

/-- `BCD` stores the hundreds, tens and ones of `V[X]` at `I`, `I + 1`, `I + 2` when all three can be written, and
changes nothing else (R144; the address checks are decisions D4, D17). -/
def Obligations.BcdStoresThreeDigits : Prop :=
  ∀ (x : Reg) (s : State), (∀ k < 3, s.canWrite (s.addrAt k)) →
    ∃ t h d e, exec (.bcd x) s = .next t ∧ t.result = .ok ∧ h < 10 ∧ d < 10 ∧ e < 10 ∧
      (s.readV x).toNat = 100 * h + 10 * d + e ∧
      memRead t.mem (s.storedOffset (s.addrAt 0)) = BitVec.ofNat 8 h ∧
      memRead t.mem (s.storedOffset (s.addrAt 1)) = BitVec.ofNat 8 d ∧
      memRead t.mem (s.storedOffset (s.addrAt 2)) = BitVec.ofNat 8 e ∧ s.unchangedBut (s.bytesAt 3) t

/-- `STM` stores `V[0]` to `V[X]` and `STR` stores `V[min]` to `V[max]` at ascending addresses from `I` when all can be
written; `I` moves past them, and nothing else changes (R146, R148; decisions D4, D17, D26). -/
def Obligations.RegisterStoresCopyAndMoveIndex : Prop :=
  ∀ (x y : Reg) (s : State) (i : Instr) (lo n : Nat),
    (i = .stm x ∧ lo = 0 ∧ n = x.val + 1) ∨
      (i = .str x y ∧ lo = min x.val y.val ∧ n = max x.val y.val - min x.val y.val + 1) →
    (∀ k < n, s.canWrite (s.addrAt k)) →
    ∃ t, exec i s = .next t ∧ t.result = .ok ∧ t.i = s.i + BitVec.ofNat 16 n ∧
      (∀ (k : Nat) (r : Reg), k < n → r.val = lo + k → memRead t.mem (s.storedOffset (s.addrAt k)) = s.readV r) ∧
      s.unchangedBut (.index :: s.bytesAt n) t

/-- `LDM` loads `V[0]` to `V[X]` and `LDR` loads `V[min]` to `V[max]` from ascending addresses from `I` when all can be
read; `I` moves past them, and nothing else changes (R147, R149; decisions D4, D17, D26). -/
def Obligations.RegisterLoadsCopyAndMoveIndex : Prop :=
  ∀ (x y : Reg) (s : State) (i : Instr) (lo n : Nat),
    (i = .ldm x ∧ lo = 0 ∧ n = x.val + 1) ∨
      (i = .ldr x y ∧ lo = min x.val y.val ∧ n = max x.val y.val - min x.val y.val + 1) →
    (∀ k < n, s.canRead (s.addrAt k)) →
    ∃ t, exec i s = .next t ∧ t.result = .ok ∧ t.i = s.i + BitVec.ofNat 16 n ∧
      (∀ (k : Nat) (r : Reg), k < n → r.val = lo + k → t.readV r = s.readByte (s.addrAt k)) ∧
      (∀ r : Reg, r.val < lo ∨ lo + n ≤ r.val → t.readV r = s.readV r) ∧
      s.unchangedBut (.index :: (List.finRange 16).map Part.reg) t

/-- A register range stored by `STM` or `STR` comes back by the matching load from the same address, whatever the
registers hold by then (R146 to R149; decisions D4, D17). -/
def Obligations.LoadUndoesStore : Prop :=
  ∀ (x y r : Reg) (s t u : State) (store load : Instr),
    (store = .stm x ∧ load = .ldm x ∧ r ≤ x) ∨
      (store = .str x y ∧ load = .ldr x y ∧ min x y ≤ r ∧ r ≤ max x y) →
    s.config.fontSize ≤ s.config.reserved →
    exec store s = .next t → t.result = .ok →
    u.i = s.i → u.mem = t.mem → u.config = s.config →
    ∃ v, exec load u = .next v ∧ v.result = .ok ∧ v.readV r = s.readV r

/-- A store of `n` bytes at `I` whose first address that cannot be written is byte `k` fails with that address's error
and changes nothing (R144, R146, R148, R225; decisions D4, D17, D18). -/
def Obligations.FailingStoreChangesNothing : Prop :=
  ∀ (x y : Reg) (s : State) (i : Instr) (n k : Nat),
    (i = .bcd x ∧ n = 3) ∨ (i = .stm x ∧ n = x.val + 1) ∨
      (i = .str x y ∧ n = max x.val y.val - min x.val y.val + 1) →
    k < n → (∀ j < k, s.canWrite (s.addrAt j)) → ¬ s.canWrite (s.addrAt k) →
    s.failsWith (exec i s) (s.accessError (s.addrAt k))

/-- A read of `n` bytes at `I` whose first address that cannot be read is byte `k` fails with that address's error and
changes nothing: loads, audio staging and draws (R147, R149, R162, R184, R225; decisions D4, D17, D18). -/
def Obligations.FailingReadChangesNothing : Prop :=
  ∀ (x y : Reg) (h : BitVec 4) (s : State) (i : Instr) (n k : Nat),
    (i = .ldm x ∧ n = x.val + 1) ∨ (i = .ldr x y ∧ n = max x.val y.val - min x.val y.val + 1) ∨
      (i = .aud ∧ n = 16) ∨ (i = .drw x y h ∧ n = s.selectedCount * h.toNat) ∨
      (i = .drwx x y ∧ n = s.selectedCount * 32) →
    k < n → (∀ j < k, s.canRead (s.addrAt j)) → ¬ s.canRead (s.addrAt k) →
    s.failsWith (exec i s) (s.accessError (s.addrAt k))

/-! ### Display -/

/-- `CLS` zeroes both planes and sets the dirty flag, whatever the mask and the planes hold (R160). -/
def Obligations.ClearZeroesBothPlanes : Prop :=
  ∀ s : State, ∃ t, exec .cls s = .next t ∧ t.result = .ok ∧ t.dirty = true ∧
    (∀ px py, planeGet t.p1 px py = false ∧ planeGet t.p2 px py = false) ∧
    s.unchangedBut [.plane1, .plane2, .dirty] t

/-- `PLANE` sets the plane mask to its operand and changes nothing else; the words with an operand above 3 do not decode
(R161; decision D11). -/
def Obligations.PlaneSelectSetsTheMask : Prop :=
  (∀ (m : BitVec 2) (s : State),
    ∃ t, exec (.plane m) s = .next t ∧ t.result = .ok ∧ t.planes = m ∧ s.unchangedBut [.planes] t) ∧
  (∀ x : Reg, x > 3 → decode (formatXNN 0xF x 0x01) = .error (.noRow (formatXNN 0xF x 0x01)))

/-- `DRW` (one byte a row, `N` rows) and `DRWX` (two bytes a row, 16 rows), when their sprite bytes can be read, toggle
exactly the pixels of the wrapped sprite on each selected plane, set `VF` to whether a toggled pixel was set, set the
dirty flag if a pixel was toggled, and change nothing else (R162, R163, R164; decisions D12 to D15, D17). -/
def Obligations.DrawTogglesTheWrappedSprite : Prop :=
  ∀ (x y : Reg) (n : BitVec 4) (s : State) (i : Instr) (wb rows : Nat),
    (i = .drw x y n ∧ wb = 1 ∧ rows = n.toNat) ∨ (i = .drwx x y ∧ wb = 2 ∧ rows = 16) →
    (∀ j < s.selectedCount * (wb * rows), s.canRead (s.addrAt j)) →
    ∃ t, exec i s = .next t ∧ t.result = .ok ∧
      (∀ px py, planeGet t.p1 px py = (planeGet s.p1 px py ^^ s.toggles1 x y wb rows px py)) ∧
      (∀ px py, planeGet t.p2 px py = (planeGet s.p2 px py ^^ s.toggles2 x y wb rows px py)) ∧
      t.readV 15 = (if ∃ px py, (s.toggles1 x y wb rows px py = true ∧ planeGet s.p1 px py = true) ∨
        (s.toggles2 x y wb rows px py = true ∧ planeGet s.p2 px py = true) then 1 else 0) ∧
      (t.dirty = true ↔ s.dirty = true ∨
        ∃ px py, s.toggles1 x y wb rows px py = true ∨ s.toggles2 x y wb rows px py = true) ∧
      s.unchangedBut [.reg 15, .dirty, .plane1, .plane2] t

/-- With no plane selected a draw completes without reading memory, draws nothing, leaves the dirty flag and writes 0 to
`VF` (R162; decision D13). -/
def Obligations.DrawWithNoPlaneOnlyClearsTheFlag : Prop :=
  ∀ (x y : Reg) (n : BitVec 4) (s : State) (i : Instr), i = .drw x y n ∨ i = .drwx x y → s.planes = 0 →
    ∃ t, exec i s = .next t ∧ t.result = .ok ∧ t.readV 15 = 0 ∧ s.unchangedBut [.reg 15] t

/-- Drawing the same sprite twice at the same place restores both planes, and the second draw sets `VF` exactly when the
sprite has a set bit over a pixel that was unset before the first (R162, R163, R164; decisions D12 to D15).
R163's remark that any set bit is enough fails where every set bit lay over a set pixel: log entry 24. -/
def Obligations.DrawTwiceRestoresThePlanes : Prop :=
  ∀ (x y : Reg) (n : BitVec 4) (s t : State) (i : Instr) (wb rows : Nat),
    (i = .drw x y n ∧ wb = 1 ∧ rows = n.toNat) ∨ (i = .drwx x y ∧ wb = 2 ∧ rows = 16) →
    exec i s = .next t → t.result = .ok → t.readV x = s.readV x → t.readV y = s.readV y →
    ∃ u, exec i t = .next u ∧ u.result = .ok ∧ u.p1 = s.p1 ∧ u.p2 = s.p2 ∧
      u.readV 15 = (if ∃ px py, (s.toggles1 x y wb rows px py = true ∧ planeGet s.p1 px py = false) ∨
        (s.toggles2 x y wb rows px py = true ∧ planeGet s.p2 px py = false) then 1 else 0)

/-! ### Timers, pitch, audio -/

/-- `LDDT`, `LDST` and `LDPITCH` copy `V[X]` into their register and change nothing else (R181, R182, R183; the
instructions exist by decision D7). -/
def Obligations.TimerAndPitchLoads : Prop :=
  ∀ (x : Reg) (s : State),
    (∃ t, exec (.lddt x) s = .next t ∧ t.result = .ok ∧ t.dt = s.readV x ∧ s.unchangedBut [.dt] t) ∧
    (∃ t, exec (.ldst x) s = .next t ∧ t.result = .ok ∧ t.st = s.readV x ∧ s.unchangedBut [.st] t) ∧
    (∃ t, exec (.ldpitch x) s = .next t ∧ t.result = .ok ∧ t.pitch = s.readV x ∧ s.unchangedBut [.pitch] t)

/-- `AUD` copies the sixteen bytes at `I` into the audio buffer when all can be read, and leaves `I` and everything else
(R184; the address checks are decisions D4, D17). -/
def Obligations.StageAudioCopiesSixteenBytes : Prop :=
  ∀ s : State, (∀ k < 16, s.canRead (s.addrAt k)) →
    ∃ t, exec .aud s = .next t ∧ t.result = .ok ∧ (∀ k : Fin 16, t.audio[k] = s.readByte (s.addrAt k.val)) ∧
      s.unchangedBut ((List.finRange 16).map Part.audio) t

/-! ### Host commands -/

/-- `tick` counts both timers down by one, floored at 0, and changes nothing else; a step never counts them: it leaves
`DT` unless its instruction is `LDDT`, and `ST` unless it is `LDST` (R206). -/
def Obligations.TickCountsDownToZero : Prop :=
  (∀ s : State, ∃ t, command .tick s = .next t ∧ t.dt.toNat = s.dt.toNat - 1 ∧ t.st.toNat = s.st.toNat - 1 ∧
    s.unchangedBut [.dt, .st] t) ∧
  (∀ s t : State, step s = .next t →
    ((∀ w x, s.fetchWord = some w → decode w ≠ .ok (.lddt x)) → t.dt = s.dt) ∧
    ((∀ w x, s.fetchWord = some w → decode w ≠ .ok (.ldst x)) → t.st = s.st))

/-- `key_down(k)` sets the pressed bit and clears the release edge of key `k`, `key_up(k)` does the reverse whether or
not the key was down, both leave every other key, a number above 15 changes nothing, and every edge is gone after the
next step (R207, R208). -/
def Obligations.KeyEventsDriveTheLatch : Prop :=
  (∀ (k : Nat) (s : State),
    (∃ t, command (.keyDown k) s = .next t ∧ s.unchangedBut [.pressed, .released] t ∧
      (∀ j < 16, t.pressed.getLsbD j = (s.pressed.getLsbD j || decide (j = k))) ∧
      (∀ j < 16, t.released.getLsbD j = (s.released.getLsbD j && !decide (j = k)))) ∧
    (∃ t, command (.keyUp k) s = .next t ∧ s.unchangedBut [.pressed, .released] t ∧
      (∀ j < 16, t.pressed.getLsbD j = (s.pressed.getLsbD j && !decide (j = k))) ∧
      (∀ j < 16, t.released.getLsbD j = (s.released.getLsbD j || decide (j = k))))) ∧
  (∀ s t : State, step s = .next t → t.released = 0)

/-- `load_rom` of bytes that fit gives the reset state with the bytes from stored offset 0 on and zeros after them; one
byte too many fails with `RomTooLarge` and changes nothing (R202; decision D22). -/
def Obligations.LoadRomReplacesMemory : Prop :=
  ∀ (bytes : List Byte) (s : State),
    (bytes.length > s.config.memSize → s.failsWith (command (.loadRom bytes) s) .romTooLarge) ∧
    (bytes.length ≤ s.config.memSize →
      ∃ r t, command .reset s = .next r ∧ command (.loadRom bytes) s = .next t ∧ t.result = .ok ∧
        (∀ p : Part, (∀ o, p ≠ .byte o) → p.same r t) ∧ (∀ o, memRead t.mem o = bytes.getD o 0))

/-- `write_rom` patches the named bytes and nothing else; if they do not fit it fails with `RomTooLarge` and changes
nothing (R203; decision D22). -/
def Obligations.WriteRomPatchesMemory : Prop :=
  ∀ (bytes : List Byte) (offset : Nat) (s : State),
    (offset + bytes.length > s.config.memSize →
      s.failsWith (command (.writeRom bytes offset) s) .romTooLarge) ∧
    (offset + bytes.length ≤ s.config.memSize →
      ∃ t, command (.writeRom bytes offset) s = .next t ∧ t.result = .ok ∧
        (∀ k < bytes.length, memRead t.mem (offset + k) = bytes.getD k 0) ∧
        s.unchangedBut ((List.range bytes.length).map fun k => Part.byte (offset + k)) t)

/-- `frame_ack` clears the dirty flag and nothing else (R209; the command is decision D27). That the field `result` keeps
the last result code over a command that returns none is the model's own choice (log entry 2). -/
def Obligations.FrameAckClearsDirty : Prop :=
  ∀ s : State, ∃ t, command .frameAck s = .next t ∧ t.dirty = false ∧ t.result = s.result ∧
    s.unchangedBut [.dirty] t

/-- A patched instruction is what the very next step runs: after `write_rom` of a word's two bytes at `pc`, the step is
that word's, with no flush (R64, R203). -/
def Obligations.PatchedWordIsFetchedNext : Prop :=
  ∀ (s : State) (hi lo : Byte), s.pc.toNat + 1 < s.config.memSize →
    ∃ t, command (.writeRom [hi, lo] s.pc.toNat) s = .next t ∧
      step t = endOfStep (execWord (wordOfBytes hi lo) { t with pc := s.pc + 2 })
end

