-- ==== Sys2Proof/Laws/Memory.lean ====
section
/-! SUPPORT. The laws of the stored memory: a read after a write, the canonical form kept, and canonical memories that
read alike are equal (log entry 19). -/

namespace Sys2Proof.Laws

open Sys2Proof.Machine

theorem memRead_filter_self (m : Memory) (o : Nat) : memRead (m.filter (fun c => c.1 != o)) o = unlistedByte := by
  induction m with
  | nil => rfl
  | cons c m ih =>
    obtain ⟨a, b⟩ := c
    by_cases h : a = o
    · simpa [h] using ih
    · have h' : o ≠ a := fun e => h e.symm
      simpa [h, h', memRead] using ih

theorem memRead_filter_ne (m : Memory) {o o' : Nat} (h : o' ≠ o) :
    memRead (m.filter (fun c => c.1 != o)) o' = memRead m o' := by
  induction m with
  | nil => rfl
  | cons c m ih =>
    obtain ⟨a, b⟩ := c
    by_cases ha : a = o
    · subst ha
      simpa [memRead, h] using ih
    · by_cases hb : o' = a
      · subst hb
        simp [ha, memRead]
      · simpa [ha, hb, memRead] using ih

theorem memRead_insert (m : Memory) (o o' : Nat) (b : Byte) (h : ∀ c ∈ m, c.1 ≠ o) :
    memRead (memInsert m o b) o' = if o' = o then b else memRead m o' := by
  induction m with
  | nil => simp [memInsert, memRead]
  | cons c m ih =>
    obtain ⟨a, d⟩ := c
    have ha : a ≠ o := h (a, d) (by simp)
    have ih := ih (fun c hc => h c (by simp [hc]))
    unfold memInsert
    split
    · simp [memRead]
    · by_cases hb : o' = a
      · subst hb
        simp [memRead, ha]
      · simp [memRead, hb, ih]

theorem memRead_memWrite (m : Memory) (o o' : Nat) (b : Byte) :
    memRead (memWrite m o b) o' = if o' = o then b else memRead m o' := by
  unfold memWrite
  by_cases hb : b = unlistedByte
  · by_cases ho : o' = o
    · simp [hb, ho, memRead_filter_self]
    · simp [hb, ho, memRead_filter_ne m ho]
  · simp only [hb, if_false]
    rw [memRead_insert _ _ _ _ (by simp)]
    by_cases ho : o' = o
    · simp [ho]
    · simp [ho, memRead_filter_ne m ho]

@[simp] theorem memRead_memWrite_self (m : Memory) (o : Nat) (b : Byte) : memRead (memWrite m o b) o = b := by
  simp [memRead_memWrite]

theorem memRead_memWrite_ne (m : Memory) {o o' : Nat} (h : o' ≠ o) (b : Byte) :
    memRead (memWrite m o b) o' = memRead m o' := by simp [memRead_memWrite, h]

theorem mem_memInsert {m : Memory} {o : Nat} {b : Byte} {c : Host.Cell} :
    c ∈ memInsert m o b ↔ c = (o, b) ∨ c ∈ m := by
  induction m with
  | nil => simp [memInsert]
  | cons d m ih =>
    unfold memInsert
    split
    · simp
    · simp only [List.mem_cons, ih]
      tauto

/-- What a write can put into the list: the new cell, or a cell that was there. -/
theorem mem_memWrite {m : Memory} {o : Nat} {b : Byte} {c : Host.Cell} (h : c ∈ memWrite m o b) :
    (c = (o, b) ∧ b ≠ unlistedByte) ∨ c ∈ m := by
  unfold memWrite at h
  by_cases hb : b = unlistedByte
  · simp only [hb, if_true, List.mem_filter] at h
    exact .inr h.1
  · simp only [hb, if_false, mem_memInsert, List.mem_filter] at h
    exact h.imp (fun e => ⟨e, hb⟩) (fun e => e.1)

theorem pairwise_memInsert {m : Memory} {o : Nat} {b : Byte} (hm : m.Pairwise (fun a b => a.1 < b.1))
    (h : ∀ c ∈ m, c.1 ≠ o) : (memInsert m o b).Pairwise (fun a b => a.1 < b.1) := by
  induction m with
  | nil => simp [memInsert]
  | cons d m ih =>
    rw [List.pairwise_cons] at hm
    unfold memInsert
    split
    · rename_i hlt
      refine List.pairwise_cons.2 ⟨fun c hc => ?_, List.pairwise_cons.2 hm⟩
      rcases List.mem_cons.1 hc with rfl | hc
      · exact hlt
      · exact lt_trans hlt (hm.1 c hc)
    · rename_i hge
      have hd : d.1 ≠ o := h d (by simp)
      refine List.pairwise_cons.2 ⟨fun c hc => ?_, ih hm.2 (fun c hc => h c (by simp [hc]))⟩
      rcases mem_memInsert.1 hc with rfl | hc
      · exact lt_of_le_of_ne (not_lt.1 hge) hd
      · exact hm.1 c hc

theorem memWrite_wf {m : Memory} (hm : Memory.wf m) (o : Nat) (b : Byte) : Memory.wf (memWrite m o b) := by
  have hf : (m.filter (fun c => c.1 != o)).Pairwise (fun a b => a.1 < b.1) := hm.1.filter _
  constructor
  · unfold memWrite
    by_cases hb : b = unlistedByte
    · simpa [hb] using hf
    · simp only [hb, if_false]
      exact pairwise_memInsert hf (by simp)
  · intro c hc
    rcases mem_memWrite hc with ⟨rfl, hb⟩ | hc
    · exact hb
    · exact hm.2 c hc

theorem memWriteBytes_wf {m : Memory} (hm : Memory.wf m) (bs : List Byte) (o : Nat) :
    Memory.wf (memWriteBytes m o bs) := by
  induction bs generalizing m o with
  | nil => exact hm
  | cons b bs ih => exact ih (memWrite_wf hm o b) (o + 1)

theorem mem_memWriteBytes {m : Memory} {bs : List Byte} {o : Nat} {c : Host.Cell}
    (h : c ∈ memWriteBytes m o bs) : c.1 < o + bs.length ∨ c ∈ m := by
  induction bs generalizing m o with
  | nil => exact .inr h
  | cons b bs ih =>
    rcases ih h with h | h
    · left; simp only [List.length_cons]; omega
    · rcases mem_memWrite h with ⟨rfl, -⟩ | h
      · left; simp
      · exact .inr h

/-- What a memory reads as after a byte string was copied into it (R202, R203). -/
theorem memRead_memWriteBytes (m : Memory) (bs : List Byte) (o o' : Nat) :
    memRead (memWriteBytes m o bs) o' = if o ≤ o' ∧ o' < o + bs.length then bs.getD (o' - o) 0 else memRead m o' := by
  induction bs generalizing m o with
  | nil =>
    have : ¬ (o ≤ o' ∧ o' < o) := by omega
    simp [memWriteBytes, this]
  | cons b bs ih =>
    simp only [memWriteBytes, ih, memRead_memWrite, List.length_cons]
    by_cases h0 : o' = o
    · have h1 : ¬ (o + 1 ≤ o) := by omega
      simp [h0, h1]
    · by_cases h1 : o + 1 ≤ o' ∧ o' < o + 1 + bs.length
      · have h2 : o ≤ o' ∧ o' < o + (bs.length + 1) := by omega
        have h3 : o' - o = (o' - (o + 1)) + 1 := by omega
        simp [h1, h2, h3]
      · have h2 : ¬ (o ≤ o' ∧ o' < o + (bs.length + 1)) := by omega
        rw [if_neg h1, if_neg h2, if_neg h0]

theorem memRead_eq_unlisted_of_lt {m : Memory} {o : Nat} (h : ∀ c ∈ m, o < c.1) : memRead m o = unlistedByte := by
  induction m with
  | nil => rfl
  | cons c m ih =>
    have : o ≠ c.1 := Nat.ne_of_lt (h c (by simp))
    simp [memRead, this, ih (fun c hc => h c (by simp [hc]))]

/-- Canonical memories that read alike are the same list. -/
theorem memory_ext {m n : Memory} (hm : Memory.wf m) (hn : Memory.wf n) (h : ∀ o, memRead m o = memRead n o) :
    m = n := by
  induction m generalizing n with
  | nil =>
    cases n with
    | nil => rfl
    | cons c n =>
      have := h c.1
      simp only [memRead, if_true] at this
      exact absurd this.symm (hn.2 c (by simp))
  | cons c m ih =>
    cases n with
    | nil =>
      have := h c.1
      simp only [memRead, if_true] at this
      exact absurd this (hm.2 c (by simp))
    | cons d n =>
      have hm1 := List.pairwise_cons.1 hm.1
      have hn1 := List.pairwise_cons.1 hn.1
      have hkey : c.1 = d.1 := by
        rcases lt_trichotomy c.1 d.1 with hlt | heq | hgt
        · have hz : memRead (d :: n) c.1 = unlistedByte :=
            memRead_eq_unlisted_of_lt (fun e he => by
              rcases List.mem_cons.1 he with rfl | he
              · exact hlt
              · exact lt_trans hlt (hn1.1 e he))
          have := h c.1
          rw [hz] at this
          simp only [memRead, if_true] at this
          exact absurd this (hm.2 c (by simp))
        · exact heq
        · have hz : memRead (c :: m) d.1 = unlistedByte :=
            memRead_eq_unlisted_of_lt (fun e he => by
              rcases List.mem_cons.1 he with rfl | he
              · exact hgt
              · exact lt_trans hgt (hm1.1 e he))
          have := h d.1
          rw [hz] at this
          simp only [memRead, if_true] at this
          exact absurd this.symm (hn.2 d (by simp))
      obtain ⟨a, b⟩ := c
      obtain ⟨a', b'⟩ := d
      obtain rfl : a = a' := hkey
      have hb : b = b' := by simpa [memRead] using h a
      subst hb
      have htail : m = n := by
        refine ih ⟨hm1.2, fun c hc => hm.2 c (by simp [hc])⟩ ⟨hn1.2, fun c hc => hn.2 c (by simp [hc])⟩ (fun o => ?_)
        by_cases ho : o = a
        · rw [memRead_eq_unlisted_of_lt (fun c hc => ho ▸ hm1.1 c hc),
            memRead_eq_unlisted_of_lt (fun c hc => ho ▸ hn1.1 c hc)]
        · simpa [memRead, ho] using h o
      rw [htail]

end Sys2Proof.Laws
end

