-- ==== Sys2Proof/Laws/State.lean ====
section
/-! SUPPORT. One lemma per field and named update of the state, so that no proof unfolds a record update, and the
lemmas about reading a register after an update. -/

namespace Sys2Proof.Laws

open Sys2Proof.Machine

variable (s : State)

/-! ### `writeV` -/

@[simp] theorem writeV_pc (r : Reg) (b : Byte) : (s.writeV r b).pc = s.pc := rfl
@[simp] theorem writeV_i (r : Reg) (b : Byte) : (s.writeV r b).i = s.i := rfl
@[simp] theorem writeV_sp (r : Reg) (b : Byte) : (s.writeV r b).sp = s.sp := rfl
@[simp] theorem writeV_stack (r : Reg) (b : Byte) : (s.writeV r b).stack = s.stack := rfl
@[simp] theorem writeV_dt (r : Reg) (b : Byte) : (s.writeV r b).dt = s.dt := rfl
@[simp] theorem writeV_st (r : Reg) (b : Byte) : (s.writeV r b).st = s.st := rfl
@[simp] theorem writeV_pitch (r : Reg) (b : Byte) : (s.writeV r b).pitch = s.pitch := rfl
@[simp] theorem writeV_planes (r : Reg) (b : Byte) : (s.writeV r b).planes = s.planes := rfl
@[simp] theorem writeV_dirty (r : Reg) (b : Byte) : (s.writeV r b).dirty = s.dirty := rfl
@[simp] theorem writeV_p1 (r : Reg) (b : Byte) : (s.writeV r b).p1 = s.p1 := rfl
@[simp] theorem writeV_p2 (r : Reg) (b : Byte) : (s.writeV r b).p2 = s.p2 := rfl
@[simp] theorem writeV_audio (r : Reg) (b : Byte) : (s.writeV r b).audio = s.audio := rfl
@[simp] theorem writeV_pressed (r : Reg) (b : Byte) : (s.writeV r b).pressed = s.pressed := rfl
@[simp] theorem writeV_released (r : Reg) (b : Byte) : (s.writeV r b).released = s.released := rfl
@[simp] theorem writeV_mem (r : Reg) (b : Byte) : (s.writeV r b).mem = s.mem := rfl
@[simp] theorem writeV_config (r : Reg) (b : Byte) : (s.writeV r b).config = s.config := rfl
@[simp] theorem writeV_result (r : Reg) (b : Byte) : (s.writeV r b).result = s.result := rfl

/-! ### `writeFlag` -/

@[simp] theorem writeFlag_pc (f : Bool) : (s.writeFlag f).pc = s.pc := rfl
@[simp] theorem writeFlag_i (f : Bool) : (s.writeFlag f).i = s.i := rfl
@[simp] theorem writeFlag_sp (f : Bool) : (s.writeFlag f).sp = s.sp := rfl
@[simp] theorem writeFlag_stack (f : Bool) : (s.writeFlag f).stack = s.stack := rfl
@[simp] theorem writeFlag_dt (f : Bool) : (s.writeFlag f).dt = s.dt := rfl
@[simp] theorem writeFlag_st (f : Bool) : (s.writeFlag f).st = s.st := rfl
@[simp] theorem writeFlag_pitch (f : Bool) : (s.writeFlag f).pitch = s.pitch := rfl
@[simp] theorem writeFlag_planes (f : Bool) : (s.writeFlag f).planes = s.planes := rfl
@[simp] theorem writeFlag_dirty (f : Bool) : (s.writeFlag f).dirty = s.dirty := rfl
@[simp] theorem writeFlag_p1 (f : Bool) : (s.writeFlag f).p1 = s.p1 := rfl
@[simp] theorem writeFlag_p2 (f : Bool) : (s.writeFlag f).p2 = s.p2 := rfl
@[simp] theorem writeFlag_audio (f : Bool) : (s.writeFlag f).audio = s.audio := rfl
@[simp] theorem writeFlag_pressed (f : Bool) : (s.writeFlag f).pressed = s.pressed := rfl
@[simp] theorem writeFlag_released (f : Bool) : (s.writeFlag f).released = s.released := rfl
@[simp] theorem writeFlag_mem (f : Bool) : (s.writeFlag f).mem = s.mem := rfl
@[simp] theorem writeFlag_config (f : Bool) : (s.writeFlag f).config = s.config := rfl
@[simp] theorem writeFlag_result (f : Bool) : (s.writeFlag f).result = s.result := rfl

/-! ### `writeResult` -/

@[simp] theorem writeResult_pc (x : Reg) (b : Byte) (f : Bool) : (s.writeResult x b f).pc = s.pc := rfl
@[simp] theorem writeResult_i (x : Reg) (b : Byte) (f : Bool) : (s.writeResult x b f).i = s.i := rfl
@[simp] theorem writeResult_sp (x : Reg) (b : Byte) (f : Bool) : (s.writeResult x b f).sp = s.sp := rfl
@[simp] theorem writeResult_stack (x : Reg) (b : Byte) (f : Bool) : (s.writeResult x b f).stack = s.stack := rfl
@[simp] theorem writeResult_dt (x : Reg) (b : Byte) (f : Bool) : (s.writeResult x b f).dt = s.dt := rfl
@[simp] theorem writeResult_st (x : Reg) (b : Byte) (f : Bool) : (s.writeResult x b f).st = s.st := rfl
@[simp] theorem writeResult_pitch (x : Reg) (b : Byte) (f : Bool) : (s.writeResult x b f).pitch = s.pitch := rfl
@[simp] theorem writeResult_planes (x : Reg) (b : Byte) (f : Bool) : (s.writeResult x b f).planes = s.planes := rfl
@[simp] theorem writeResult_dirty (x : Reg) (b : Byte) (f : Bool) : (s.writeResult x b f).dirty = s.dirty := rfl
@[simp] theorem writeResult_p1 (x : Reg) (b : Byte) (f : Bool) : (s.writeResult x b f).p1 = s.p1 := rfl
@[simp] theorem writeResult_p2 (x : Reg) (b : Byte) (f : Bool) : (s.writeResult x b f).p2 = s.p2 := rfl
@[simp] theorem writeResult_audio (x : Reg) (b : Byte) (f : Bool) : (s.writeResult x b f).audio = s.audio := rfl
@[simp] theorem writeResult_pressed (x : Reg) (b : Byte) (f : Bool) : (s.writeResult x b f).pressed = s.pressed := rfl
@[simp] theorem writeResult_released (x : Reg) (b : Byte) (f : Bool) : (s.writeResult x b f).released = s.released := rfl
@[simp] theorem writeResult_mem (x : Reg) (b : Byte) (f : Bool) : (s.writeResult x b f).mem = s.mem := rfl
@[simp] theorem writeResult_config (x : Reg) (b : Byte) (f : Bool) : (s.writeResult x b f).config = s.config := rfl
@[simp] theorem writeResult_result (x : Reg) (b : Byte) (f : Bool) : (s.writeResult x b f).result = s.result := rfl

/-! ### `setPc` -/

@[simp] theorem setPc_v (w : Word) : (s.setPc w).v = s.v := rfl
@[simp] theorem setPc_pc (w : Word) : (s.setPc w).pc = w := rfl
@[simp] theorem setPc_i (w : Word) : (s.setPc w).i = s.i := rfl
@[simp] theorem setPc_sp (w : Word) : (s.setPc w).sp = s.sp := rfl
@[simp] theorem setPc_stack (w : Word) : (s.setPc w).stack = s.stack := rfl
@[simp] theorem setPc_dt (w : Word) : (s.setPc w).dt = s.dt := rfl
@[simp] theorem setPc_st (w : Word) : (s.setPc w).st = s.st := rfl
@[simp] theorem setPc_pitch (w : Word) : (s.setPc w).pitch = s.pitch := rfl
@[simp] theorem setPc_planes (w : Word) : (s.setPc w).planes = s.planes := rfl
@[simp] theorem setPc_dirty (w : Word) : (s.setPc w).dirty = s.dirty := rfl
@[simp] theorem setPc_p1 (w : Word) : (s.setPc w).p1 = s.p1 := rfl
@[simp] theorem setPc_p2 (w : Word) : (s.setPc w).p2 = s.p2 := rfl
@[simp] theorem setPc_audio (w : Word) : (s.setPc w).audio = s.audio := rfl
@[simp] theorem setPc_pressed (w : Word) : (s.setPc w).pressed = s.pressed := rfl
@[simp] theorem setPc_released (w : Word) : (s.setPc w).released = s.released := rfl
@[simp] theorem setPc_mem (w : Word) : (s.setPc w).mem = s.mem := rfl
@[simp] theorem setPc_config (w : Word) : (s.setPc w).config = s.config := rfl
@[simp] theorem setPc_result (w : Word) : (s.setPc w).result = s.result := rfl

/-! ### `setI` -/

@[simp] theorem setI_v (a : Word) : (s.setI a).v = s.v := rfl
@[simp] theorem setI_pc (a : Word) : (s.setI a).pc = s.pc := rfl
@[simp] theorem setI_i (a : Word) : (s.setI a).i = a := rfl
@[simp] theorem setI_sp (a : Word) : (s.setI a).sp = s.sp := rfl
@[simp] theorem setI_stack (a : Word) : (s.setI a).stack = s.stack := rfl
@[simp] theorem setI_dt (a : Word) : (s.setI a).dt = s.dt := rfl
@[simp] theorem setI_st (a : Word) : (s.setI a).st = s.st := rfl
@[simp] theorem setI_pitch (a : Word) : (s.setI a).pitch = s.pitch := rfl
@[simp] theorem setI_planes (a : Word) : (s.setI a).planes = s.planes := rfl
@[simp] theorem setI_dirty (a : Word) : (s.setI a).dirty = s.dirty := rfl
@[simp] theorem setI_p1 (a : Word) : (s.setI a).p1 = s.p1 := rfl
@[simp] theorem setI_p2 (a : Word) : (s.setI a).p2 = s.p2 := rfl
@[simp] theorem setI_audio (a : Word) : (s.setI a).audio = s.audio := rfl
@[simp] theorem setI_pressed (a : Word) : (s.setI a).pressed = s.pressed := rfl
@[simp] theorem setI_released (a : Word) : (s.setI a).released = s.released := rfl
@[simp] theorem setI_mem (a : Word) : (s.setI a).mem = s.mem := rfl
@[simp] theorem setI_config (a : Word) : (s.setI a).config = s.config := rfl
@[simp] theorem setI_result (a : Word) : (s.setI a).result = s.result := rfl

/-! ### `bumpI` -/

@[simp] theorem bumpI_v (n : Nat) : (s.bumpI n).v = s.v := rfl
@[simp] theorem bumpI_pc (n : Nat) : (s.bumpI n).pc = s.pc := rfl
@[simp] theorem bumpI_i (n : Nat) : (s.bumpI n).i = s.addrAt n := rfl
@[simp] theorem bumpI_sp (n : Nat) : (s.bumpI n).sp = s.sp := rfl
@[simp] theorem bumpI_stack (n : Nat) : (s.bumpI n).stack = s.stack := rfl
@[simp] theorem bumpI_dt (n : Nat) : (s.bumpI n).dt = s.dt := rfl
@[simp] theorem bumpI_st (n : Nat) : (s.bumpI n).st = s.st := rfl
@[simp] theorem bumpI_pitch (n : Nat) : (s.bumpI n).pitch = s.pitch := rfl
@[simp] theorem bumpI_planes (n : Nat) : (s.bumpI n).planes = s.planes := rfl
@[simp] theorem bumpI_dirty (n : Nat) : (s.bumpI n).dirty = s.dirty := rfl
@[simp] theorem bumpI_p1 (n : Nat) : (s.bumpI n).p1 = s.p1 := rfl
@[simp] theorem bumpI_p2 (n : Nat) : (s.bumpI n).p2 = s.p2 := rfl
@[simp] theorem bumpI_audio (n : Nat) : (s.bumpI n).audio = s.audio := rfl
@[simp] theorem bumpI_pressed (n : Nat) : (s.bumpI n).pressed = s.pressed := rfl
@[simp] theorem bumpI_released (n : Nat) : (s.bumpI n).released = s.released := rfl
@[simp] theorem bumpI_mem (n : Nat) : (s.bumpI n).mem = s.mem := rfl
@[simp] theorem bumpI_config (n : Nat) : (s.bumpI n).config = s.config := rfl
@[simp] theorem bumpI_result (n : Nat) : (s.bumpI n).result = s.result := rfl

/-! ### `advance` -/

@[simp] theorem advance_v : s.advance.v = s.v := rfl
@[simp] theorem advance_pc : s.advance.pc = s.pc + 2 := rfl
@[simp] theorem advance_i : s.advance.i = s.i := rfl
@[simp] theorem advance_sp : s.advance.sp = s.sp := rfl
@[simp] theorem advance_stack : s.advance.stack = s.stack := rfl
@[simp] theorem advance_dt : s.advance.dt = s.dt := rfl
@[simp] theorem advance_st : s.advance.st = s.st := rfl
@[simp] theorem advance_pitch : s.advance.pitch = s.pitch := rfl
@[simp] theorem advance_planes : s.advance.planes = s.planes := rfl
@[simp] theorem advance_dirty : s.advance.dirty = s.dirty := rfl
@[simp] theorem advance_p1 : s.advance.p1 = s.p1 := rfl
@[simp] theorem advance_p2 : s.advance.p2 = s.p2 := rfl
@[simp] theorem advance_audio : s.advance.audio = s.audio := rfl
@[simp] theorem advance_pressed : s.advance.pressed = s.pressed := rfl
@[simp] theorem advance_released : s.advance.released = s.released := rfl
@[simp] theorem advance_mem : s.advance.mem = s.mem := rfl
@[simp] theorem advance_config : s.advance.config = s.config := rfl
@[simp] theorem advance_result : s.advance.result = s.result := rfl

/-! ### `writeByte` -/

@[simp] theorem writeByte_v (a : Word) (b : Byte) : (s.writeByte a b).v = s.v := rfl
@[simp] theorem writeByte_pc (a : Word) (b : Byte) : (s.writeByte a b).pc = s.pc := rfl
@[simp] theorem writeByte_i (a : Word) (b : Byte) : (s.writeByte a b).i = s.i := rfl
@[simp] theorem writeByte_sp (a : Word) (b : Byte) : (s.writeByte a b).sp = s.sp := rfl
@[simp] theorem writeByte_stack (a : Word) (b : Byte) : (s.writeByte a b).stack = s.stack := rfl
@[simp] theorem writeByte_dt (a : Word) (b : Byte) : (s.writeByte a b).dt = s.dt := rfl
@[simp] theorem writeByte_st (a : Word) (b : Byte) : (s.writeByte a b).st = s.st := rfl
@[simp] theorem writeByte_pitch (a : Word) (b : Byte) : (s.writeByte a b).pitch = s.pitch := rfl
@[simp] theorem writeByte_planes (a : Word) (b : Byte) : (s.writeByte a b).planes = s.planes := rfl
@[simp] theorem writeByte_dirty (a : Word) (b : Byte) : (s.writeByte a b).dirty = s.dirty := rfl
@[simp] theorem writeByte_p1 (a : Word) (b : Byte) : (s.writeByte a b).p1 = s.p1 := rfl
@[simp] theorem writeByte_p2 (a : Word) (b : Byte) : (s.writeByte a b).p2 = s.p2 := rfl
@[simp] theorem writeByte_audio (a : Word) (b : Byte) : (s.writeByte a b).audio = s.audio := rfl
@[simp] theorem writeByte_pressed (a : Word) (b : Byte) : (s.writeByte a b).pressed = s.pressed := rfl
@[simp] theorem writeByte_released (a : Word) (b : Byte) : (s.writeByte a b).released = s.released := rfl
@[simp] theorem writeByte_mem (a : Word) (b : Byte) : (s.writeByte a b).mem = memWrite s.mem (s.storedOffset a) b := rfl
@[simp] theorem writeByte_config (a : Word) (b : Byte) : (s.writeByte a b).config = s.config := rfl
@[simp] theorem writeByte_result (a : Word) (b : Byte) : (s.writeByte a b).result = s.result := rfl

/-! ### `push` -/

@[simp] theorem push_v (w : Word) (h : s.sp.val < 16) : (s.push w h).v = s.v := rfl
@[simp] theorem push_pc (w : Word) (h : s.sp.val < 16) : (s.push w h).pc = s.pc := rfl
@[simp] theorem push_i (w : Word) (h : s.sp.val < 16) : (s.push w h).i = s.i := rfl
@[simp] theorem push_stack (w : Word) (h : s.sp.val < 16) : (s.push w h).stack = s.stack.set s.sp.val w := rfl
@[simp] theorem push_dt (w : Word) (h : s.sp.val < 16) : (s.push w h).dt = s.dt := rfl
@[simp] theorem push_st (w : Word) (h : s.sp.val < 16) : (s.push w h).st = s.st := rfl
@[simp] theorem push_pitch (w : Word) (h : s.sp.val < 16) : (s.push w h).pitch = s.pitch := rfl
@[simp] theorem push_planes (w : Word) (h : s.sp.val < 16) : (s.push w h).planes = s.planes := rfl
@[simp] theorem push_dirty (w : Word) (h : s.sp.val < 16) : (s.push w h).dirty = s.dirty := rfl
@[simp] theorem push_p1 (w : Word) (h : s.sp.val < 16) : (s.push w h).p1 = s.p1 := rfl
@[simp] theorem push_p2 (w : Word) (h : s.sp.val < 16) : (s.push w h).p2 = s.p2 := rfl
@[simp] theorem push_audio (w : Word) (h : s.sp.val < 16) : (s.push w h).audio = s.audio := rfl
@[simp] theorem push_pressed (w : Word) (h : s.sp.val < 16) : (s.push w h).pressed = s.pressed := rfl
@[simp] theorem push_released (w : Word) (h : s.sp.val < 16) : (s.push w h).released = s.released := rfl
@[simp] theorem push_mem (w : Word) (h : s.sp.val < 16) : (s.push w h).mem = s.mem := rfl
@[simp] theorem push_config (w : Word) (h : s.sp.val < 16) : (s.push w h).config = s.config := rfl
@[simp] theorem push_result (w : Word) (h : s.sp.val < 16) : (s.push w h).result = s.result := rfl

/-! ### `popDepth` -/

@[simp] theorem popDepth_v : s.popDepth.v = s.v := rfl
@[simp] theorem popDepth_pc : s.popDepth.pc = s.pc := rfl
@[simp] theorem popDepth_i : s.popDepth.i = s.i := rfl
@[simp] theorem popDepth_stack : s.popDepth.stack = s.stack := rfl
@[simp] theorem popDepth_dt : s.popDepth.dt = s.dt := rfl
@[simp] theorem popDepth_st : s.popDepth.st = s.st := rfl
@[simp] theorem popDepth_pitch : s.popDepth.pitch = s.pitch := rfl
@[simp] theorem popDepth_planes : s.popDepth.planes = s.planes := rfl
@[simp] theorem popDepth_dirty : s.popDepth.dirty = s.dirty := rfl
@[simp] theorem popDepth_p1 : s.popDepth.p1 = s.p1 := rfl
@[simp] theorem popDepth_p2 : s.popDepth.p2 = s.p2 := rfl
@[simp] theorem popDepth_audio : s.popDepth.audio = s.audio := rfl
@[simp] theorem popDepth_pressed : s.popDepth.pressed = s.pressed := rfl
@[simp] theorem popDepth_released : s.popDepth.released = s.released := rfl
@[simp] theorem popDepth_mem : s.popDepth.mem = s.mem := rfl
@[simp] theorem popDepth_config : s.popDepth.config = s.config := rfl
@[simp] theorem popDepth_result : s.popDepth.result = s.result := rfl

/-! ### `skipIf` -/

@[simp] theorem skipIf_v (c : Bool) : (s.skipIf c).v = s.v := by cases c <;> rfl
@[simp] theorem skipIf_pc (c : Bool) : (s.skipIf c).pc = if c then s.pc + 2 else s.pc := by
  cases c <;> rfl
@[simp] theorem skipIf_i (c : Bool) : (s.skipIf c).i = s.i := by cases c <;> rfl
@[simp] theorem skipIf_sp (c : Bool) : (s.skipIf c).sp = s.sp := by cases c <;> rfl
@[simp] theorem skipIf_stack (c : Bool) : (s.skipIf c).stack = s.stack := by cases c <;> rfl
@[simp] theorem skipIf_dt (c : Bool) : (s.skipIf c).dt = s.dt := by cases c <;> rfl
@[simp] theorem skipIf_st (c : Bool) : (s.skipIf c).st = s.st := by cases c <;> rfl
@[simp] theorem skipIf_pitch (c : Bool) : (s.skipIf c).pitch = s.pitch := by cases c <;> rfl
@[simp] theorem skipIf_planes (c : Bool) : (s.skipIf c).planes = s.planes := by cases c <;> rfl
@[simp] theorem skipIf_dirty (c : Bool) : (s.skipIf c).dirty = s.dirty := by cases c <;> rfl
@[simp] theorem skipIf_p1 (c : Bool) : (s.skipIf c).p1 = s.p1 := by cases c <;> rfl
@[simp] theorem skipIf_p2 (c : Bool) : (s.skipIf c).p2 = s.p2 := by cases c <;> rfl
@[simp] theorem skipIf_audio (c : Bool) : (s.skipIf c).audio = s.audio := by cases c <;> rfl
@[simp] theorem skipIf_pressed (c : Bool) : (s.skipIf c).pressed = s.pressed := by cases c <;> rfl
@[simp] theorem skipIf_released (c : Bool) : (s.skipIf c).released = s.released := by cases c <;> rfl
@[simp] theorem skipIf_mem (c : Bool) : (s.skipIf c).mem = s.mem := by cases c <;> rfl
@[simp] theorem skipIf_config (c : Bool) : (s.skipIf c).config = s.config := by cases c <;> rfl
@[simp] theorem skipIf_result (c : Bool) : (s.skipIf c).result = s.result := by cases c <;> rfl

/-! ### `setResult` and `clearReleased` -/

@[simp] theorem setResult_v (r : Result) : (s.setResult r).v = s.v := rfl
@[simp] theorem setResult_pc (r : Result) : (s.setResult r).pc = s.pc := rfl
@[simp] theorem setResult_i (r : Result) : (s.setResult r).i = s.i := rfl
@[simp] theorem setResult_sp (r : Result) : (s.setResult r).sp = s.sp := rfl
@[simp] theorem setResult_stack (r : Result) : (s.setResult r).stack = s.stack := rfl
@[simp] theorem setResult_dt (r : Result) : (s.setResult r).dt = s.dt := rfl
@[simp] theorem setResult_st (r : Result) : (s.setResult r).st = s.st := rfl
@[simp] theorem setResult_pitch (r : Result) : (s.setResult r).pitch = s.pitch := rfl
@[simp] theorem setResult_planes (r : Result) : (s.setResult r).planes = s.planes := rfl
@[simp] theorem setResult_dirty (r : Result) : (s.setResult r).dirty = s.dirty := rfl
@[simp] theorem setResult_p1 (r : Result) : (s.setResult r).p1 = s.p1 := rfl
@[simp] theorem setResult_p2 (r : Result) : (s.setResult r).p2 = s.p2 := rfl
@[simp] theorem setResult_audio (r : Result) : (s.setResult r).audio = s.audio := rfl
@[simp] theorem setResult_pressed (r : Result) : (s.setResult r).pressed = s.pressed := rfl
@[simp] theorem setResult_released (r : Result) : (s.setResult r).released = s.released := rfl
@[simp] theorem setResult_mem (r : Result) : (s.setResult r).mem = s.mem := rfl
@[simp] theorem setResult_config (r : Result) : (s.setResult r).config = s.config := rfl
@[simp] theorem setResult_result (r : Result) : (s.setResult r).result = r := rfl

@[simp] theorem clearReleased_v : s.clearReleased.v = s.v := rfl
@[simp] theorem clearReleased_pc : s.clearReleased.pc = s.pc := rfl
@[simp] theorem clearReleased_i : s.clearReleased.i = s.i := rfl
@[simp] theorem clearReleased_sp : s.clearReleased.sp = s.sp := rfl
@[simp] theorem clearReleased_stack : s.clearReleased.stack = s.stack := rfl
@[simp] theorem clearReleased_dt : s.clearReleased.dt = s.dt := rfl
@[simp] theorem clearReleased_st : s.clearReleased.st = s.st := rfl
@[simp] theorem clearReleased_pitch : s.clearReleased.pitch = s.pitch := rfl
@[simp] theorem clearReleased_planes : s.clearReleased.planes = s.planes := rfl
@[simp] theorem clearReleased_dirty : s.clearReleased.dirty = s.dirty := rfl
@[simp] theorem clearReleased_p1 : s.clearReleased.p1 = s.p1 := rfl
@[simp] theorem clearReleased_p2 : s.clearReleased.p2 = s.p2 := rfl
@[simp] theorem clearReleased_audio : s.clearReleased.audio = s.audio := rfl
@[simp] theorem clearReleased_pressed : s.clearReleased.pressed = s.pressed := rfl
@[simp] theorem clearReleased_released : s.clearReleased.released = 0 := rfl
@[simp] theorem clearReleased_mem : s.clearReleased.mem = s.mem := rfl
@[simp] theorem clearReleased_config : s.clearReleased.config = s.config := rfl
@[simp] theorem clearReleased_result : s.clearReleased.result = s.result := rfl

@[simp] theorem popDepth_sp_val : s.popDepth.sp.val = s.sp.val - 1 := rfl

@[simp] theorem push_sp_val (w : Word) (h : s.sp.val < 16) : (s.push w h).sp.val = s.sp.val + 1 := rfl

/-! ### Reading a register -/

theorem readV_writeV (r r' : Reg) (b : Byte) : (s.writeV r b).readV r' = if r' = r then b else s.readV r' := by
  unfold State.readV State.writeV
  simp only [Fin.getElem_fin, Vector.getElem_set]
  by_cases h : r' = r
  · simp [h]
  · have : r.val ≠ r'.val := fun e => h (Fin.ext e.symm)
    simp [h, this]

@[simp] theorem readV_writeV_self (r : Reg) (b : Byte) : (s.writeV r b).readV r = b := by simp [readV_writeV]

theorem readV_writeV_ne {r r' : Reg} (h : r' ≠ r) (b : Byte) : (s.writeV r b).readV r' = s.readV r' := by
  simp [readV_writeV, h]

/-- A register's value depends on the register file alone. -/
theorem readV_congr {s t : State} (h : t.v = s.v) (r : Reg) : t.readV r = s.readV r := by
  simp [State.readV, h]

@[simp] theorem writeFlag_flag (f : Bool) : (s.writeFlag f).readV 15 = if f then 1 else 0 :=
  readV_writeV_self s flagReg _

theorem writeFlag_readV {r : Reg} (h : r ≠ 15) (f : Bool) : (s.writeFlag f).readV r = s.readV r :=
  readV_writeV_ne s h _

/-- The flag remains, also when `VF` is the destination (R131). -/
@[simp] theorem writeResult_flag (x : Reg) (b : Byte) (f : Bool) :
    (s.writeResult x b f).readV 15 = if f then 1 else 0 := writeFlag_flag _ f

/-- The destination holds the result unless it is `VF` (R131). -/
theorem writeResult_dest {x : Reg} (h : x ≠ 15) (b : Byte) (f : Bool) : (s.writeResult x b f).readV x = b := by
  simp [State.writeResult, writeFlag_readV _ h]

theorem writeResult_other {x r : Reg} (hx : r ≠ x) (hf : r ≠ 15) (b : Byte) (f : Bool) :
    (s.writeResult x b f).readV r = s.readV r := by
  simp [State.writeResult, writeFlag_readV _ hf, readV_writeV_ne _ hx]

end Sys2Proof.Laws
end

