-- ==== Sys2Proof/Laws/Ops.lean ====
section
/-! SUPPORT. One lemma for each shared operation: the address checks, the ordered checks of a multi-byte access, the
register blocks stored and loaded, and the frame relation. -/

namespace Sys2Proof.Laws

open Sys2Proof.Machine

/-! ### Outcomes -/

@[simp] theorem checked_none (s t : State) : checked none s t = complete t := rfl

@[simp] theorem checked_some (e : Error) (s t : State) : checked (some e) s t = raise e s := rfl

/-- All a checked instruction can do: report its first failing check and change nothing, or complete. -/
theorem checked_next {e : Option Error} {s u t : State} (h : checked e s u = .next t) :
    (∃ x, e = some x ∧ t = s.setResult (.error x)) ∨ (e = none ∧ t = u.setResult .ok) := by
  cases e with
  | none => exact .inr ⟨rfl, by simpa [complete] using h.symm⟩
  | some x => exact .inl ⟨x, rfl, by simpa [raise] using h.symm⟩

/-! ### The frame relation -/

theorem same_refl (s : State) (p : Part) : p.same s s := by cases p <;> exact rfl

theorem unchangedBut_result (s : State) (r : Result) (ps : List Part) : s.unchangedBut ps (s.setResult r) :=
  fun p _ => by cases p <;> exact rfl

theorem failsWith_raise (e : Error) (s : State) : s.failsWith (raise e s) e :=
  ⟨_, rfl, rfl, unchangedBut_result s _ _⟩

/-! ### Address checks (R54, R55) -/

theorem checkRead_ok {s : State} {a : Word} (h : s.canRead a) : checkRead s.config a = none := by
  unfold State.canRead Config.logicalTop at h
  unfold checkRead
  split
  · rfl
  · rw [if_neg (by omega), if_neg (by omega)]

theorem checkRead_fails {s : State} {a : Word} (h : ¬ s.canRead a) :
    checkRead s.config a = some (s.accessError a) := by
  unfold State.canRead Config.logicalTop at h
  unfold checkRead State.accessError
  rw [if_neg (by omega)]
  split
  · rfl
  · rw [if_pos (by omega)]

theorem checkWrite_ok {s : State} {a : Word} (h : s.canWrite a) : checkWrite s.config a = none := by
  unfold State.canWrite Config.logicalTop at h
  unfold checkWrite
  rw [if_neg (by omega), if_neg (by omega)]

theorem checkWrite_fails {s : State} {a : Word} (h : ¬ s.canWrite a) :
    checkWrite s.config a = some (s.accessError a) := by
  unfold State.canWrite Config.logicalTop at h
  unfold checkWrite State.accessError
  split
  · rfl
  · rw [if_pos (by omega)]

theorem checkRead_eq_none {s : State} {a : Word} : checkRead s.config a = none ↔ s.canRead a :=
  ⟨fun h => by by_contra hn; simp [checkRead_fails hn] at h, checkRead_ok⟩

theorem checkWrite_eq_none {s : State} {a : Word} : checkWrite s.config a = none ↔ s.canWrite a :=
  ⟨fun h => by by_contra hn; simp [checkWrite_fails hn] at h, checkWrite_ok⟩

theorem canWrite_canRead {s : State} {a : Word} (h : s.canWrite a) : s.canRead a := .inr h

/-! ### Ordered checks (R225) -/

theorem firstError_eq_none {check : Nat → Option Error} {n : Nat} :
    firstError check n = none ↔ ∀ k < n, check k = none := by
  simp [firstError, List.findSome?_eq_none_iff]

theorem firstError_eq_some {check : Nat → Option Error} {n k : Nat} {e : Error} (hk : k < n)
    (hbefore : ∀ j < k, check j = none) (h : check k = some e) : firstError check n = some e := by
  obtain ⟨m, rfl⟩ : ∃ m, n = (k + 1) + m := ⟨n - (k + 1), by omega⟩
  have hnone : (List.range k).findSome? check = none := by simpa [List.findSome?_eq_none_iff] using hbefore
  simp [firstError, List.range_add, List.range_succ, List.findSome?_append, hnone, h]

theorem checkReads_eq_none {s : State} {n : Nat} : s.checkReads n = none ↔ ∀ k < n, s.canRead (s.addrAt k) := by
  simp [State.checkReads, firstError_eq_none, checkRead_eq_none]

theorem checkWrites_eq_none {s : State} {n : Nat} : s.checkWrites n = none ↔ ∀ k < n, s.canWrite (s.addrAt k) := by
  simp [State.checkWrites, firstError_eq_none, checkWrite_eq_none]

theorem checkReads_fails {s : State} {n k : Nat} (hk : k < n) (hb : ∀ j < k, s.canRead (s.addrAt j))
    (h : ¬ s.canRead (s.addrAt k)) : s.checkReads n = some (s.accessError (s.addrAt k)) :=
  firstError_eq_some hk (fun j hj => checkRead_ok (hb j hj)) (checkRead_fails h)

theorem checkWrites_fails {s : State} {n k : Nat} (hk : k < n) (hb : ∀ j < k, s.canWrite (s.addrAt j))
    (h : ¬ s.canWrite (s.addrAt k)) : s.checkWrites n = some (s.accessError (s.addrAt k)) :=
  firstError_eq_some hk (fun j hj => checkWrite_ok (hb j hj)) (checkWrite_fails h)

/-- The errors an access can report. -/
theorem firstError_access {s : State} {n : Nat} {e : Error}
    (h : s.checkReads n = some e ∨ s.checkWrites n = some e) : e = .addressUnderflow ∨ e = .addressOverflow := by
  have hc : ∀ a, checkRead s.config a = some e ∨ checkWrite s.config a = some e →
      e = .addressUnderflow ∨ e = .addressOverflow := by
    intro a ha
    rcases ha with ha | ha
    · by_cases hr : s.canRead a
      · rw [checkRead_ok hr] at ha; cases ha
      · rw [checkRead_fails hr] at ha; unfold State.accessError at ha; split at ha <;> simp_all
    · by_cases hr : s.canWrite a
      · rw [checkWrite_ok hr] at ha; cases ha
      · rw [checkWrite_fails hr] at ha; unfold State.accessError at ha; split at ha <;> simp_all
  rcases h with h | h <;>
  · obtain ⟨k, -, hk⟩ := List.exists_of_findSome?_eq_some h
    first | exact hc _ (.inl hk) | exact hc _ (.inr hk)

/-! ### Addresses of an access -/

/-- Byte addresses of one access do not repeat within 65536 bytes (R61). -/
theorem addrAt_inj {s : State} {j k : Nat} (hj : j < 65536) (hk : k < 65536) (h : s.addrAt j = s.addrAt k) : j = k := by
  have := congrArg BitVec.toNat h
  simp only [State.addrAt, BitVec.toNat_add, BitVec.toNat_ofNat] at this
  omega

theorem storedOffset_inj {s : State} {a b : Word} (ha : s.canWrite a) (hb : s.canWrite b)
    (h : s.storedOffset a = s.storedOffset b) : a = b := by
  unfold State.canWrite State.storedOffset at *
  exact BitVec.eq_of_toNat_eq (by omega)

theorem storedOffset_lt {s : State} {a : Word} (h : s.canWrite a) : s.storedOffset a < s.config.memSize := by
  unfold State.canWrite Config.logicalTop State.storedOffset at *
  omega

theorem regOf_val {r : Reg} {n : Nat} (h : r.val = n) : regOf n = r := by
  subst h
  exact Fin.ext (Nat.mod_eq_of_lt r.isLt)

/-! ### Register blocks stored (R146, R148) -/

theorem storeRegs_succ (s : State) (lo n : Nat) :
    s.storeRegs lo (n + 1) = (s.storeRegs lo n).writeByte ((s.storeRegs lo n).addrAt n)
      ((s.storeRegs lo n).readV (regOf (lo + n))) := by
  simp [State.storeRegs, List.range_succ]

/-- Only memory differs after the stores. -/
theorem storeRegs_eq (s : State) (lo n : Nat) : s.storeRegs lo n = { s with mem := (s.storeRegs lo n).mem } := by
  induction n with
  | zero => rfl
  | succ n ih => rw [storeRegs_succ, ih]; rfl

theorem storeRegs_mem_succ (s : State) (lo n : Nat) :
    (s.storeRegs lo (n + 1)).mem =
      memWrite (s.storeRegs lo n).mem (s.storedOffset (s.addrAt n)) (s.readV (regOf (lo + n))) := by
  rw [storeRegs_succ, storeRegs_eq]; rfl

/-- The stored bytes: byte `k` holds register `lo + k`, every other offset reads as before. -/
theorem memRead_storeRegs {s : State} {lo n : Nat} (hn : n ≤ 65536) (hw : ∀ k < n, s.canWrite (s.addrAt k)) :
    (∀ k < n, memRead (s.storeRegs lo n).mem (s.storedOffset (s.addrAt k)) = s.readV (regOf (lo + k))) ∧
    (∀ o, (∀ k < n, o ≠ s.storedOffset (s.addrAt k)) → memRead (s.storeRegs lo n).mem o = memRead s.mem o) := by
  induction n with
  | zero => exact ⟨by omega, fun o _ => rfl⟩
  | succ n ih =>
    obtain ⟨ih1, ih2⟩ := ih (by omega) (fun k hk => hw k (by omega))
    constructor
    · intro k hk
      rw [storeRegs_mem_succ]
      by_cases h : k = n
      · subst h; simp
      · have hne : s.storedOffset (s.addrAt k) ≠ s.storedOffset (s.addrAt n) := fun e =>
          h (addrAt_inj (by omega) (by omega) (storedOffset_inj (hw k hk) (hw n (by omega)) e))
        rw [memRead_memWrite_ne _ hne, ih1 k (by omega)]
    · intro o ho
      rw [storeRegs_mem_succ, memRead_memWrite_ne _ (ho n (by omega)), ih2 o (fun k hk => ho k (by omega))]

/-- A property of memory that every write inside memory keeps holds after the stores. -/
theorem storeRegs_mem_induction {motive : Memory → Prop} {s : State} {lo n : Nat} (h0 : motive s.mem)
    (hw : ∀ k < n, s.canWrite (s.addrAt k))
    (hstep : ∀ m o b, motive m → o < s.config.memSize → motive (memWrite m o b)) : motive (s.storeRegs lo n).mem := by
  induction n with
  | zero => exact h0
  | succ n ih =>
    rw [storeRegs_mem_succ]
    exact hstep _ _ _ (ih (fun k hk => hw k (by omega))) (storedOffset_lt (hw n (by omega)))

/-! ### Register blocks loaded (R147, R149) -/

theorem loadRegs_succ (s : State) (lo n : Nat) :
    s.loadRegs lo (n + 1) = (s.loadRegs lo n).writeV (regOf (lo + n))
      ((s.loadRegs lo n).readByte ((s.loadRegs lo n).addrAt n)) := by
  simp [State.loadRegs, List.range_succ]

/-- Only the register file differs after the loads. -/
theorem loadRegs_eq (s : State) (lo n : Nat) : s.loadRegs lo n = { s with v := (s.loadRegs lo n).v } := by
  induction n with
  | zero => rfl
  | succ n ih => rw [loadRegs_succ, ih]; rfl

theorem loadRegs_succ' (s : State) (lo n : Nat) :
    s.loadRegs lo (n + 1) = (s.loadRegs lo n).writeV (regOf (lo + n)) (s.readByte (s.addrAt n)) := by
  rw [loadRegs_succ, loadRegs_eq]; rfl

/-- The loaded registers: register `lo + k` holds byte `k`, every other register is as before. -/
theorem readV_loadRegs (s : State) (lo n : Nat) (hn : lo + n ≤ 16) :
    (∀ (k : Nat) (r : Reg), k < n → r.val = lo + k → (s.loadRegs lo n).readV r = s.readByte (s.addrAt k)) ∧
    (∀ r : Reg, r.val < lo ∨ lo + n ≤ r.val → (s.loadRegs lo n).readV r = s.readV r) := by
  induction n with
  | zero => exact ⟨by omega, fun r _ => rfl⟩
  | succ n ih =>
    obtain ⟨ih1, ih2⟩ := ih (by omega)
    have hval : (regOf (lo + n)).val = lo + n := Nat.mod_eq_of_lt (by omega)
    constructor
    · intro k r hk hr
      rw [loadRegs_succ']
      by_cases h : k = n
      · subst h
        rw [regOf_val hr, readV_writeV_self]
      · have hne : r ≠ regOf (lo + n) := fun e => h (by have := congrArg Fin.val e; omega)
        rw [readV_writeV_ne _ hne, ih1 k r (by omega) hr]
    · intro r hr
      have hne : r ≠ regOf (lo + n) := fun e => by have := congrArg Fin.val e; omega
      rw [loadRegs_succ', readV_writeV_ne _ hne, ih2 r (by omega)]

/-! ### Ranges (R148) -/

theorem rangeLow_add_count_le (x y : Reg) : rangeLow x y + rangeCount x y ≤ 16 := by
  unfold rangeCount rangeLow; omega

theorem rangeCount_le (x y : Reg) : rangeCount x y ≤ 16 := by
  have := rangeLow_add_count_le x y; omega

theorem rangeLow_comm (x y : Reg) : rangeLow x y = rangeLow y x := by unfold rangeLow; omega

theorem rangeCount_comm (x y : Reg) : rangeCount x y = rangeCount y x := by unfold rangeCount rangeLow; omega

/-! ### Keys (R10) -/

/-- `lsb_index` is the smallest set bit. -/
theorem lsbIndex_eq {m : BitVec 16} {k : Nat} (hk : k < 16) (h : m.getLsbD k = true)
    (hb : ∀ j < k, m.getLsbD j = false) : lsbIndex m = k := by
  have hfind : ∀ n, k < n → (List.range n).find? (fun k => m.getLsbD k) = some k := by
    intro n hn
    obtain ⟨d, rfl⟩ : ∃ d, n = (k + 1) + d := ⟨n - (k + 1), by omega⟩
    have hnone : (List.range k).find? (fun k => m.getLsbD k) = none := by
      simpa [List.find?_eq_none] using hb
    simp [List.range_add, List.range_succ, List.find?_append, hnone, h]
  simp [lsbIndex, hfind 16 hk]

end Sys2Proof.Laws
end

