-- ==== Sys2Proof/Laws/Display.lean ====
section
/-! SUPPORT. The compositor (R162): the loops over the bits of a sprite toggle exactly the pixels of the wrapped sprite,
each once. -/

namespace Sys2Proof.Laws

open Sys2Proof.Machine

/-! ### Pixels of a plane -/

theorem getLsbD_one_shiftLeft (x k : Nat) (hx : x < 128) : (1#128 <<< x).getLsbD k = decide (k = x) := by
  simp only [BitVec.getLsbD_shiftLeft, BitVec.getLsbD_one]
  by_cases h : k = x
  · subst h; simp [hx]
  · have : ¬ (k < 128 ∧ x ≤ k ∧ k - x = 0) := by omega
    simp only [h, decide_false]
    by_contra hc
    simp at hc
    omega

theorem planeGet_planeFlip (p : Plane) (x px : Fin 128) (y py : Fin 64) :
    planeGet (planeFlip p x y) px py = (planeGet p px py ^^ decide (px = x ∧ py = y)) := by
  unfold planeGet planeFlip
  simp only [Fin.getElem_fin, Vector.getElem_set]
  by_cases hy : y = py
  · subst hy
    rw [if_pos rfl, BitVec.getLsbD_xor, getLsbD_one_shiftLeft _ _ x.isLt]
    simp [Fin.ext_iff]
  · have hv : y.val ≠ py.val := fun e => hy (Fin.ext e)
    have hy' : py ≠ y := fun e => hy e.symm
    simp [hv, hy']

/-- Planes with the same pixels are the same plane. -/
theorem plane_ext {p q : Plane} (h : ∀ x y, planeGet p x y = planeGet q x y) : p = q := by
  refine Vector.ext fun y hy => BitVec.eq_of_getLsbD_eq fun x hx => ?_
  exact h ⟨x, hx⟩ ⟨y, hy⟩

@[simp] theorem planeGet_blank (x : Fin 128) (y : Fin 64) : planeGet Plane.blank x y = false := by
  simp [planeGet, Plane.blank]

/-! ### Drawing a list of different pixels -/

/-- The fold of `drawPixel` over pixels that do not repeat: each listed pixel is toggled, a listed pixel that was set is
a collision, and any listed pixel is a change. -/
theorem drawPixels_spec (l : List (Fin 128 × Fin 64)) (hl : l.Nodup) (d : Drawing) :
    let r := l.foldl (fun d q => drawPixel d q.1 q.2) d
    (∀ px py, planeGet r.plane px py = (planeGet d.plane px py ^^ decide ((px, py) ∈ l))) ∧
    (r.coll = true ↔ d.coll = true ∨ ∃ px py, (px, py) ∈ l ∧ planeGet d.plane px py = true) ∧
    (r.changed = true ↔ d.changed = true ∨ ∃ px py, (px, py) ∈ l) := by
  induction l generalizing d with
  | nil => simp
  | cons q l ih =>
    obtain ⟨x, y⟩ := q
    obtain ⟨hq, hl⟩ := List.nodup_cons.1 hl
    obtain ⟨ih1, ih2, ih3⟩ := ih hl (drawPixel d x y)
    refine ⟨fun px py => ?_, ?_, ?_⟩
    · rw [List.foldl_cons, ih1]
      show (planeGet (planeFlip d.plane x y) px py ^^ _) = _
      rw [planeGet_planeFlip]
      by_cases h : px = x ∧ py = y
      · obtain ⟨rfl, rfl⟩ := h
        simp [hq]
      · simp [h]
    · rw [List.foldl_cons, ih2]
      constructor
      · rintro (h | ⟨px, py, hm, hp⟩)
        · rcases Bool.or_eq_true _ _ ▸ h with h | h
          · exact .inl h
          · exact .inr ⟨x, y, by simp, h⟩
        · have hne : ¬ (px = x ∧ py = y) := by rintro ⟨rfl, rfl⟩; exact hq hm
          refine .inr ⟨px, py, by simp [hm], ?_⟩
          have hp : planeGet (planeFlip d.plane x y) px py = true := hp
          simpa [planeGet_planeFlip, hne] using hp
      · rintro (h | ⟨px, py, hm, hp⟩)
        · exact .inl (by simp [drawPixel, h])
        · by_cases he : px = x ∧ py = y
          · obtain ⟨rfl, rfl⟩ := he
            exact .inl (by simp [drawPixel, hp])
          · refine .inr ⟨px, py, by simpa [he] using hm, ?_⟩
            show planeGet (planeFlip d.plane x y) px py = true
            simp [planeGet_planeFlip, he, hp]
    · rw [List.foldl_cons, ih3]
      constructor
      · exact fun _ => .inr ⟨x, y, by simp⟩
      · exact fun _ => .inl rfl

/-! ### The sprite's pixels -/

/-- A sprite pixel: inside the sprite, and its bit is set, the most significant bit of a byte leftmost (R162). -/
theorem mem_spritePixels {s : State} {base wb rows dx dy : Nat} :
    (dx, dy) ∈ spritePixels s base wb rows ↔
      dx < 8 * wb ∧ dy < rows ∧ (s.readByte (s.addrAt (base + dy * wb + dx / 8))).getLsbD (7 - dx % 8) = true := by
  simp only [spritePixels, List.mem_flatMap, List.mem_range, List.mem_map, List.mem_filter, Prod.mk.injEq]
  constructor
  · rintro ⟨r, hr, b, hb, c, ⟨hc, hbit⟩, rfl, rfl⟩
    have h1 : (8 * b + c) / 8 = b := by omega
    have h2 : (8 * b + c) % 8 = c := by omega
    exact ⟨by omega, hr, by rw [h1, h2]; exact hbit⟩
  · rintro ⟨hx, hy, hbit⟩
    exact ⟨dy, hy, dx / 8, by omega, dx % 8, ⟨by omega, hbit⟩, by omega, rfl⟩

theorem spritePixels_nodup (s : State) (base wb rows : Nat) : (spritePixels s base wb rows).Nodup := by
  unfold spritePixels
  refine List.nodup_flatMap.2 ⟨fun r _ => List.nodup_flatMap.2 ⟨fun b _ => ?_, ?_⟩, ?_⟩
  · refine (List.nodup_range.filter _).map fun c c' h => ?_
    simp only [Prod.mk.injEq] at h
    omega
  · refine List.nodup_range.imp fun {b b'} hne => ?_
    simp only [Function.onFun, List.disjoint_left, List.mem_map, List.mem_filter, List.mem_range]
    rintro q ⟨c, ⟨hc, -⟩, rfl⟩ ⟨c', ⟨hc', -⟩, h⟩
    simp only [Prod.mk.injEq] at h
    omega
  · refine List.nodup_range.imp fun {r r'} hne => ?_
    simp only [Function.onFun, List.disjoint_left, List.mem_flatMap, List.mem_map]
    rintro q ⟨b, -, c, -, rfl⟩ ⟨b', -, c', -, h⟩
    simp only [Prod.mk.injEq] at h
    exact hne h.2.symm

/-- Where a sprite pixel lands on the display. -/
def landing (x0 y0 : Byte) (q : Nat × Nat) : Fin 128 × Fin 64 := (columnAt x0 q.1, rowAt y0 q.2)

theorem landing_eq {x0 y0 : Byte} {dx dy : Nat} {px : Fin 128} {py : Fin 64} (hx : dx < 128) (hy : dy < 64) :
    landing x0 y0 (dx, dy) = (px, py) ↔
      dx = (px.val + 128 - x0.toNat % 128) % 128 ∧ dy = (py.val + 64 - y0.toNat % 64) % 64 := by
  have h1 := px.isLt
  have h2 := py.isLt
  simp only [landing, columnAt, rowAt, Prod.mk.injEq, Fin.ext_iff, Fin.val_ofNat]
  omega

/-- The landings of a sprite that fits the display are the pixels `spriteBit` names. -/
theorem mem_landings {s : State} {base wb rows : Nat} {x0 y0 : Byte} {px : Fin 128} {py : Fin 64}
    (hw : 8 * wb ≤ 128) (hr : rows ≤ 64) :
    (px, py) ∈ (spritePixels s base wb rows).map (landing x0 y0) ↔ s.spriteBit base wb rows x0 y0 px py = true := by
  simp only [List.mem_map, Prod.exists, State.spriteBit, Bool.and_eq_true, decide_eq_true_eq]
  constructor
  · rintro ⟨dx, dy, hm, hl⟩
    obtain ⟨hx, hy, hb⟩ := mem_spritePixels.1 hm
    obtain ⟨rfl, rfl⟩ := (landing_eq (by omega) (by omega)).1 hl
    exact ⟨⟨hx, hy⟩, hb⟩
  · rintro ⟨⟨hx, hy⟩, hb⟩
    exact ⟨_, _, mem_spritePixels.2 ⟨hx, hy, hb⟩, (landing_eq (by omega) (by omega)).2 ⟨rfl, rfl⟩⟩

theorem landings_nodup {s : State} {base wb rows : Nat} (x0 y0 : Byte) (hw : 8 * wb ≤ 128) (hr : rows ≤ 64) :
    ((spritePixels s base wb rows).map (landing x0 y0)).Nodup := by
  refine List.Nodup.map_on (fun q hq q' hq' h => ?_) (spritePixels_nodup s base wb rows)
  obtain ⟨dx, dy⟩ := q
  obtain ⟨dx', dy'⟩ := q'
  obtain ⟨hx, hy, -⟩ := mem_spritePixels.1 hq
  obtain ⟨hx', hy', -⟩ := mem_spritePixels.1 hq'
  have h1 := (landing_eq (px := (landing x0 y0 (dx', dy')).1) (py := (landing x0 y0 (dx', dy')).2)
    (by omega) (by omega)).1 h
  have h2 := (landing_eq (px := (landing x0 y0 (dx', dy')).1) (py := (landing x0 y0 (dx', dy')).2)
    (by omega) (by omega)).1 (rfl : landing x0 y0 (dx', dy') = _)
  rw [Prod.mk.injEq]
  exact ⟨h1.1.trans h2.1.symm, h1.2.trans h2.2.symm⟩

/-- One block drawn on one plane (R162). -/
theorem drawPlane_spec (p : Plane) (x0 y0 : Byte) (s : State) (base wb rows : Nat) (hw : 8 * wb ≤ 128)
    (hr : rows ≤ 64) :
    let d := drawPlane p x0 y0 (spritePixels s base wb rows)
    (∀ px py, planeGet d.plane px py = (planeGet p px py ^^ s.spriteBit base wb rows x0 y0 px py)) ∧
    (d.coll = true ↔ ∃ px py, s.spriteBit base wb rows x0 y0 px py = true ∧ planeGet p px py = true) ∧
    (d.changed = true ↔ ∃ px py, s.spriteBit base wb rows x0 y0 px py = true) := by
  have hfold : drawPlane p x0 y0 (spritePixels s base wb rows) =
      ((spritePixels s base wb rows).map (landing x0 y0)).foldl (fun d q => drawPixel d q.1 q.2) (Drawing.start p) := by
    rw [List.foldl_map]; rfl
  obtain ⟨h1, h2, h3⟩ := drawPixels_spec _ (landings_nodup (s := s) (base := base) x0 y0 hw hr) (Drawing.start p)
  rw [hfold]
  refine ⟨fun px py => ?_, ?_, ?_⟩
  · rw [h1]
    by_cases h : s.spriteBit base wb rows x0 y0 px py = true
    · simp [mem_landings hw hr, h, Drawing.start]
    · simp [mem_landings hw hr, h, Drawing.start]
  · simpa [mem_landings hw hr, Drawing.start] using h2
  · simpa [mem_landings hw hr, Drawing.start] using h3

/-- The draw on plane 1, selected or not. -/
theorem drawing1_spec (x y : Reg) (wb rows : Nat) (s : State) (hw : 8 * wb ≤ 128) (hr : rows ≤ 64) :
    (∀ px py, planeGet (drawing1 x y wb rows s).plane px py =
      (planeGet s.p1 px py ^^ s.toggles1 x y wb rows px py)) ∧
    ((drawing1 x y wb rows s).coll = true ↔
      ∃ px py, s.toggles1 x y wb rows px py = true ∧ planeGet s.p1 px py = true) ∧
    ((drawing1 x y wb rows s).changed = true ↔ ∃ px py, s.toggles1 x y wb rows px py = true) := by
  unfold drawing1 State.toggles1
  by_cases h : s.selects1 = true
  · simpa [h] using drawPlane_spec s.p1 (s.readV x) (s.readV y) s 0 wb rows hw hr
  · simp [h, Drawing.start]

/-- The draw on plane 2, selected or not. -/
theorem drawing2_spec (x y : Reg) (wb rows : Nat) (s : State) (hw : 8 * wb ≤ 128) (hr : rows ≤ 64) :
    (∀ px py, planeGet (drawing2 x y wb rows s).plane px py =
      (planeGet s.p2 px py ^^ s.toggles2 x y wb rows px py)) ∧
    ((drawing2 x y wb rows s).coll = true ↔
      ∃ px py, s.toggles2 x y wb rows px py = true ∧ planeGet s.p2 px py = true) ∧
    ((drawing2 x y wb rows s).changed = true ↔ ∃ px py, s.toggles2 x y wb rows px py = true) := by
  unfold drawing2 State.toggles2
  by_cases h : s.selects2 = true
  · simpa [h] using drawPlane_spec s.p2 (s.readV x) (s.readV y) s _ wb rows hw hr
  · simp [h, Drawing.start]

end Sys2Proof.Laws
end

