-- ==== Sys2Proof/Laws/Encoding.lean ====
section
/-! SUPPORT. The fields of an encoded word (R72, R75), read back one by one. -/

namespace Sys2Proof.Laws

@[simp] theorem fieldClass_formatNNN (c : BitVec 4) (n : BitVec 12) : fieldClass (formatNNN c n) = c :=
  BitVec.extractLsb'_append_eq_left

@[simp] theorem fieldNNN_formatNNN (c : BitVec 4) (n : BitVec 12) : fieldNNN (formatNNN c n) = n :=
  BitVec.extractLsb'_append_eq_right

@[simp] theorem fieldClass_formatXNN (c : BitVec 4) (x : Reg) (n : Byte) : fieldClass (formatXNN c x n) = c := by
  unfold fieldClass formatXNN
  rw [BitVec.extractLsb'_append_eq_of_le (by decide)]
  exact BitVec.extractLsb'_append_eq_left

@[simp] theorem fieldX_formatXNN (c : BitVec 4) (x : Reg) (n : Byte) : fieldX (formatXNN c x n) = x := by
  unfold fieldX formatXNN
  rw [BitVec.extractLsb'_append_eq_of_le (by decide)]
  exact congrArg BitVec.toFin (BitVec.extractLsb'_append_eq_right (a := c) (b := BitVec.ofFin (w := 4) x))

@[simp] theorem fieldNN_formatXNN (c : BitVec 4) (x : Reg) (n : Byte) : fieldNN (formatXNN c x n) = n :=
  BitVec.extractLsb'_append_eq_right

@[simp] theorem fieldClass_formatXYN (c : BitVec 4) (x y : Reg) (n : BitVec 4) :
    fieldClass (formatXYN c x y n) = c := by
  unfold fieldClass formatXYN
  rw [BitVec.extractLsb'_append_eq_of_le (by decide), BitVec.extractLsb'_append_eq_of_le (by decide)]
  exact BitVec.extractLsb'_append_eq_left

@[simp] theorem fieldX_formatXYN (c : BitVec 4) (x y : Reg) (n : BitVec 4) : fieldX (formatXYN c x y n) = x := by
  unfold fieldX formatXYN
  rw [BitVec.extractLsb'_append_eq_of_le (by decide), BitVec.extractLsb'_append_eq_of_le (by decide)]
  exact congrArg BitVec.toFin (BitVec.extractLsb'_append_eq_right (a := c) (b := BitVec.ofFin (w := 4) x))

@[simp] theorem fieldY_formatXYN (c : BitVec 4) (x y : Reg) (n : BitVec 4) : fieldY (formatXYN c x y n) = y := by
  unfold fieldY formatXYN
  rw [BitVec.extractLsb'_append_eq_of_le (by decide)]
  exact congrArg BitVec.toFin
    (BitVec.extractLsb'_append_eq_right (a := c ++ BitVec.ofFin (w := 4) x) (b := BitVec.ofFin (w := 4) y))

@[simp] theorem fieldN_formatXYN (c : BitVec 4) (x y : Reg) (n : BitVec 4) : fieldN (formatXYN c x y n) = n :=
  BitVec.extractLsb'_append_eq_right

/-! ### A word is what its fields make -/

theorem formatNNN_fields (w : Word) : formatNNN (fieldClass w) (fieldNNN w) = w :=
  BitVec.eq_of_getLsbD_eq fun i hi => by
    simp only [formatNNN, fieldClass, fieldNNN, BitVec.getLsbD_append, BitVec.getLsbD_extractLsb']
    by_cases h : i < 12
    · simp [h]
    · have h1 : i - 12 < 4 := by omega
      have h2 : 12 + (i - 12) = i := by omega
      simp [h, h1, h2]

theorem formatXNN_fields (w : Word) : formatXNN (fieldClass w) (fieldX w) (fieldNN w) = w :=
  BitVec.eq_of_getLsbD_eq fun i hi => by
    simp only [formatXNN, fieldClass, fieldX, fieldNN, BitVec.ofFin_toFin, BitVec.getLsbD_append,
      BitVec.getLsbD_extractLsb']
    by_cases h : i < 8
    · simp [h]
    · by_cases h' : i - 8 < 4
      · have h2 : 8 + (i - 8) = i := by omega
        simp [h, h', h2]
      · have h1 : i - 8 - 4 < 4 := by omega
        have h2 : 12 + (i - 8 - 4) = i := by omega
        simp [h, h', h1, h2]

theorem formatXYN_fields (w : Word) : formatXYN (fieldClass w) (fieldX w) (fieldY w) (fieldN w) = w :=
  BitVec.eq_of_getLsbD_eq fun i hi => by
    simp only [formatXYN, fieldClass, fieldX, fieldY, fieldN, BitVec.ofFin_toFin, BitVec.getLsbD_append,
      BitVec.getLsbD_extractLsb']
    by_cases h : i < 4
    · simp [h]
    · by_cases h' : i - 4 < 4
      · have h2 : 4 + (i - 4) = i := by omega
        simp [h, h', h2]
      · by_cases h'' : i - 4 - 4 < 4
        · have h2 : 8 + (i - 4 - 4) = i := by omega
          simp [h, h', h'', h2]
        · have h1 : i - 4 - 4 - 4 < 4 := by omega
          have h2 : 12 + (i - 4 - 4 - 4) = i := by omega
          simp [h, h', h'', h1, h2]

/-! ### The dispatch on the class (R78) -/

theorem decode_class0 {w : Word} (h : fieldClass w = 0x0) :
    decode w = if w = 0x00E0 then .ok .cls else if w = 0x00EE then .ok .ret else .error (.noRow w) := by
  unfold decode; rw [h]; rfl
theorem decode_class1 {w : Word} (h : fieldClass w = 0x1) : decode w = .ok (.jp (fieldNNN w)) := by
  unfold decode; rw [h]; rfl
theorem decode_class2 {w : Word} (h : fieldClass w = 0x2) : decode w = .ok (.call (fieldNNN w)) := by
  unfold decode; rw [h]; rfl
theorem decode_class3 {w : Word} (h : fieldClass w = 0x3) : decode w = .ok (.sei (fieldX w) (fieldNN w)) := by
  unfold decode; rw [h]; rfl
theorem decode_class4 {w : Word} (h : fieldClass w = 0x4) : decode w = .ok (.snei (fieldX w) (fieldNN w)) := by
  unfold decode; rw [h]; rfl
theorem decode_class5 {w : Word} (h : fieldClass w = 0x5) : decode w = decodeClass5 w := by
  unfold decode; rw [h]; rfl
theorem decode_class6 {w : Word} (h : fieldClass w = 0x6) : decode w = .ok (.ldn (fieldX w) (fieldNN w)) := by
  unfold decode; rw [h]; rfl
theorem decode_class7 {w : Word} (h : fieldClass w = 0x7) : decode w = .ok (.addn (fieldX w) (fieldNN w)) := by
  unfold decode; rw [h]; rfl
theorem decode_class8 {w : Word} (h : fieldClass w = 0x8) : decode w = decodeClass8 w := by
  unfold decode; rw [h]; rfl
theorem decode_class9 {w : Word} (h : fieldClass w = 0x9) :
    decode w = if fieldN w = 0 then .ok (.sner (fieldX w) (fieldY w)) else .error (.noRow w) := by
  unfold decode; rw [h]; rfl
theorem decode_classA {w : Word} (h : fieldClass w = 0xA) : decode w = .ok (.ldi (fieldNNN w)) := by
  unfold decode; rw [h]; rfl
theorem decode_classB {w : Word} (h : fieldClass w = 0xB) : decode w = .ok (.jp0 (fieldNNN w)) := by
  unfold decode; rw [h]; rfl
theorem decode_classC {w : Word} (h : fieldClass w = 0xC) : decode w = .error (.noRow w) := by
  unfold decode; rw [h]; rfl
theorem decode_classD {w : Word} (h : fieldClass w = 0xD) :
    decode w = if fieldN w = 0 then .ok (.drwx (fieldX w) (fieldY w))
      else .ok (.drw (fieldX w) (fieldY w) (fieldN w)) := by
  unfold decode; rw [h]; rfl
theorem decode_classE {w : Word} (h : fieldClass w = 0xE) : decode w = decodeClassE w := by
  unfold decode; rw [h]; rfl
theorem decode_classF {w : Word} (h : fieldClass w = 0xF) : decode w = decodeClassF w := by
  unfold decode; rw [h]; rfl

/-- Every word is in one of the sixteen classes. -/
theorem fieldClass_cases (w : Word) :
    fieldClass w = 0x0 ∨ fieldClass w = 0x1 ∨ fieldClass w = 0x2 ∨ fieldClass w = 0x3 ∨ fieldClass w = 0x4 ∨
    fieldClass w = 0x5 ∨ fieldClass w = 0x6 ∨ fieldClass w = 0x7 ∨ fieldClass w = 0x8 ∨ fieldClass w = 0x9 ∨
    fieldClass w = 0xA ∨ fieldClass w = 0xB ∨ fieldClass w = 0xC ∨ fieldClass w = 0xD ∨ fieldClass w = 0xE ∨
    fieldClass w = 0xF := by
  generalize fieldClass w = c
  revert c
  decide

/-! ### The masks of the opcode map as fields (R77) -/

theorem mask_class (w : Word) : w &&& 0xF000#16 = fieldClass w ++ 0#12 := by
  refine BitVec.eq_of_getLsbD_eq fun i hi => ?_
  unfold fieldClass
  simp only [BitVec.getLsbD_and, BitVec.getLsbD_append, BitVec.getLsbD_extractLsb']
  interval_cases i <;> simp

theorem mask_class_nibble (w : Word) : w &&& 0xF00F#16 = (fieldClass w ++ 0#8) ++ fieldN w := by
  refine BitVec.eq_of_getLsbD_eq fun i hi => ?_
  unfold fieldClass fieldN
  simp only [BitVec.getLsbD_and, BitVec.getLsbD_append, BitVec.getLsbD_extractLsb']
  interval_cases i <;> simp

theorem mask_class_byte (w : Word) : w &&& 0xF0FF#16 = (fieldClass w ++ 0#4) ++ fieldNN w := by
  refine BitVec.eq_of_getLsbD_eq fun i hi => ?_
  unfold fieldClass fieldNN
  simp only [BitVec.getLsbD_and, BitVec.getLsbD_append, BitVec.getLsbD_extractLsb']
  interval_cases i <;> simp

theorem mask_plane (w : Word) :
    w &&& 0xFCFF#16 = (fieldClass w ++ (BitVec.ofFin (w := 4) (fieldX w) &&& 0xC#4)) ++ fieldNN w := by
  refine BitVec.eq_of_getLsbD_eq fun i hi => ?_
  unfold fieldClass fieldNN fieldX
  simp only [BitVec.getLsbD_and, BitVec.getLsbD_append, BitVec.getLsbD_extractLsb', BitVec.ofFin_toFin]
  interval_cases i <;> simp

theorem mask_all (w : Word) : w &&& 0xFFFF#16 = w := by
  refine BitVec.eq_of_getLsbD_eq fun i hi => ?_
  interval_cases i <;> simp

end Sys2Proof.Laws
end

