-- ==== Sys2Proof/Laws/Exec.lean ====
section
/-! SUPPORT. What any instruction can do, said once: `exec i s` reports the failure `failure i s` and changes nothing,
or completes with `effect i s`. Statements over all instructions are about `effect`. -/

namespace Sys2Proof.Laws

open Sys2Proof.Machine

/-- The error `translateTarget` gives, if any. -/
def targetFailure (c : Config) (target : Nat) : Option Error :=
  if target < c.reserved then some .addressUnderflow
  else if target - c.reserved ≥ c.memSize then some .addressOverflow
  else none

/-- The error an instruction reports, the first of its checks that fails. -/
def failure (i : Instr) (s : State) : Option Error :=
  match i with
  | .ret => if s.sp.val = 0 then some .stackUnderflow else none
  | .jp nnn => targetFailure s.config nnn.toNat
  | .call nnn => if s.sp.val < 16 then targetFailure s.config nnn.toNat else some .stackOverflow
  | .jp0 nnn => targetFailure s.config (s.offsetTarget nnn)
  | .str x y => s.checkWrites (rangeCount x y)
  | .ldr x y => s.checkReads (rangeCount x y)
  | .drwx _ _ => s.checkReads (s.selectedCount * (2 * 16))
  | .drw _ _ n => s.checkReads (s.selectedCount * (1 * n.toNat))
  | .ldl => if s.fetchWord = none then some .addressOverflow else none
  | .aud => s.checkReads 16
  | .ldf x => if (s.readV x).toNat ≥ s.config.fontGlyphs then some .invalidInstruction else none
  | .bcd _ => s.checkWrites 3
  | .stm x => s.checkWrites (x.val + 1)
  | .ldm x => s.checkReads (x.val + 1)
  | .cls | .sei _ _ | .snei _ _ | .ser _ _ | .ldn _ _ | .addn _ _ | .mov _ _ | .or _ _ | .and _ _ | .xor _ _
  | .add _ _ | .sub _ _ | .shr _ _ | .subn _ _ | .shl _ _ | .sner _ _ | .ldi _ | .skp _ | .sknp _ | .plane _
  | .ldvdt _ | .ldk _ | .lddt _ | .ldst _ | .addi _ | .ldpitch _ => none

/-- The stored offset of a target that translates. -/
def targetOffset (c : Config) (target : Nat) : Word := BitVec.ofNat 16 (target - c.reserved)

/-- The state after an instruction that completes, but for the result code. -/
def effect (i : Instr) (s : State) : State :=
  match i with
  | .cls => { s with p1 := Plane.blank, p2 := Plane.blank, dirty := true }
  | .ret => s.popDepth.setPc s.top
  | .jp nnn => s.setPc (targetOffset s.config nnn.toNat)
  | .call nnn => if h : s.sp.val < 16 then (s.push s.pc h).setPc (targetOffset s.config nnn.toNat) else s
  | .sei x nn => s.skipIf (s.readV x == nn)
  | .snei x nn => s.skipIf (s.readV x != nn)
  | .ser x y => s.skipIf (s.readV x == s.readV y)
  | .str x y => (s.storeRegs (rangeLow x y) (rangeCount x y)).bumpI (rangeCount x y)
  | .ldr x y => (s.loadRegs (rangeLow x y) (rangeCount x y)).bumpI (rangeCount x y)
  | .ldn x nn => s.writeV x nn
  | .addn x nn => s.writeV x (sumOf (s.readV x) nn)
  | .mov x y => s.writeV x (s.readV y)
  | .or x y => s.writeResult x (s.readV x ||| s.readV y) false
  | .and x y => s.writeResult x (s.readV x &&& s.readV y) false
  | .xor x y => s.writeResult x (s.readV x ^^^ s.readV y) false
  | .add x y => s.writeResult x (sumOf (s.readV x) (s.readV y)) (carryFlag (s.readV x) (s.readV y))
  | .sub x y => s.writeResult x (differenceOf (s.readV x) (s.readV y)) (notBorrowFlag (s.readV x) (s.readV y))
  | .shr x y => s.writeResult x (shrIn s.config (s.readV x) (s.readV y).toNat).value
      (shrIn s.config (s.readV x) (s.readV y).toNat).flag
  | .subn x y => s.writeResult x (differenceOf (s.readV y) (s.readV x)) (notBorrowFlag (s.readV y) (s.readV x))
  | .shl x y => s.writeResult x (shlIn s.config (s.readV x) (s.readV y).toNat).value
      (shlIn s.config (s.readV x) (s.readV y).toNat).flag
  | .sner x y => s.skipIf (s.readV x != s.readV y)
  | .ldi nnn => s.setI (nnn.setWidth 16)
  | .jp0 nnn => s.setPc (targetOffset s.config (s.offsetTarget nnn))
  | .drwx x y => composited x y 2 16 s
  | .drw x y n => composited x y 1 n.toNat s
  | .skp x => s.skipIf (s.keyPressed x)
  | .sknp x => s.skipIf (!s.keyPressed x)
  | .ldl => s.advance.setI (s.fetchWord.getD 0)
  | .plane m => { s with planes := m }
  | .aud => { s with audio := s.audioBytes }
  | .ldvdt x => s.writeV x s.dt
  | .ldk x => if s.released = 0 then s.setPc (s.pc - 2) else s.writeV x (BitVec.ofNat 8 (lsbIndex s.released))
  | .lddt x => { s with dt := s.readV x }
  | .ldst x => { s with st := s.readV x }
  | .addi x => s.setI (BitVec.ofNat 16 (s.i.toNat + (s.readV x).toNat))
  | .ldf x => s.setI (BitVec.ofNat 16 ((s.readV x).toNat * s.config.glyphH))
  | .bcd x => ((s.writeByte (s.addrAt 0) (BitVec.ofNat 8 ((s.readV x).toNat / 100))).writeByte (s.addrAt 1)
      (BitVec.ofNat 8 ((s.readV x).toNat / 10 % 10))).writeByte (s.addrAt 2) (BitVec.ofNat 8 ((s.readV x).toNat % 10))
  | .ldpitch x => { s with pitch := s.readV x }
  | .stm x => (s.storeRegs 0 (x.val + 1)).bumpI (x.val + 1)
  | .ldm x => (s.loadRegs 0 (x.val + 1)).bumpI (x.val + 1)

theorem jumpTo_eq (target : Nat) (s : State) :
    jumpTo target s = checked (targetFailure s.config target) s (s.setPc (targetOffset s.config target)) := by
  unfold jumpTo translateTarget targetFailure
  split_ifs <;> rfl

/-- Every instruction is a list of checks and an effect. -/
theorem exec_eq (i : Instr) (s : State) : exec i s = checked (failure i s) s (effect i s) := by
  cases i with
  | jp nnn => exact jumpTo_eq _ s
  | jp0 nnn => exact jumpTo_eq _ s
  | ret =>
    show execRet s = _
    by_cases h : s.sp.val = 0 <;> simp [execRet, failure, effect, h]
  | call nnn =>
    show execCall nnn s = _
    by_cases h : s.sp.val < 16
    · simp only [execCall, failure, effect, h, dif_pos, if_true, translateTarget, targetFailure]
      split_ifs <;> rfl
    · simp [execCall, failure, effect, h]
  | ldl =>
    show execLdl s = _
    cases h : s.fetchWord <;> simp [execLdl, failure, effect, h]
  | ldf x =>
    show execLdf x s = _
    by_cases h : s.config.fontGlyphs ≤ (s.readV x).toNat <;> simp [execLdf, failure, effect, h]
  | ldk x =>
    show execLdk x s = _
    simp only [execLdk, failure, effect, checked_none]
    split_ifs <;> rfl
  | _ => rfl

/-- The errors an instruction can report (R223). -/
theorem failure_mem {i : Instr} {s : State} {e : Error} (h : failure i s = some e) :
    e ∈ [Error.invalidInstruction, .addressOverflow, .addressUnderflow, .stackOverflow, .stackUnderflow] := by
  have htarget : ∀ c n, targetFailure c n = some e → e = .addressUnderflow ∨ e = .addressOverflow := by
    intro c n hn
    unfold targetFailure at hn
    split_ifs at hn <;> simp_all
  have hread : ∀ n, s.checkReads n = some e → e = .addressUnderflow ∨ e = .addressOverflow :=
    fun n hn => firstError_access (.inl hn)
  have hwrite : ∀ n, s.checkWrites n = some e → e = .addressUnderflow ∨ e = .addressOverflow :=
    fun n hn => firstError_access (.inr hn)
  have haccess : (e = .addressUnderflow ∨ e = .addressOverflow) →
      e ∈ [Error.invalidInstruction, .addressOverflow, .addressUnderflow, .stackOverflow, .stackUnderflow] := by
    rintro (rfl | rfl) <;> simp
  cases i with
  | ret => simp only [failure] at h; split_ifs at h; simp_all
  | call nnn =>
    simp only [failure] at h
    split_ifs at h
    · exact haccess (htarget _ _ h)
    · simp_all
  | jp nnn => exact haccess (htarget _ _ h)
  | jp0 nnn => exact haccess (htarget _ _ h)
  | str x y => exact haccess (hwrite _ h)
  | ldr x y => exact haccess (hread _ h)
  | drwx x y => exact haccess (hread _ h)
  | drw x y n => exact haccess (hread _ h)
  | ldl => simp only [failure] at h; split_ifs at h; simp_all
  | aud => exact haccess (hread _ h)
  | ldf x => simp only [failure] at h; split_ifs at h; simp_all
  | bcd x => exact haccess (hwrite _ h)
  | stm x => exact haccess (hwrite _ h)
  | ldm x => exact haccess (hread _ h)
  | _ => simp [failure] at h

/-- All an instruction can do: fail and change nothing, or complete with its effect. -/
theorem exec_next {i : Instr} {s t : State} (h : exec i s = .next t) :
    (∃ e, failure i s = some e ∧ t = s.setResult (.error e)) ∨
    (failure i s = none ∧ t = (effect i s).setResult .ok) := by
  rw [exec_eq] at h
  exact checked_next h

theorem exec_completes {i : Instr} {s : State} (h : failure i s = none) :
    exec i s = .next ((effect i s).setResult .ok) := by
  rw [exec_eq, h]; rfl

theorem exec_fails {i : Instr} {s : State} {e : Error} (h : failure i s = some e) :
    exec i s = .next (s.setResult (.error e)) := by
  rw [exec_eq, h]; rfl

/-- `exec` always answers a next state. -/
theorem exec_answers (i : Instr) (s : State) : ∃ t, exec i s = .next t := by
  cases h : failure i s with
  | none => exact ⟨_, exec_completes h⟩
  | some e => exact ⟨_, exec_fails h⟩

theorem exec_ok {i : Instr} {s t : State} (h : exec i s = .next t) (hr : t.result = .ok) :
    failure i s = none ∧ t = (effect i s).setResult .ok := by
  rcases exec_next h with ⟨e, -, rfl⟩ | h
  · simp at hr
  · exact h

/-- What holds of the start and of the effect holds after any outcome: the form of a rule over all instructions. -/
theorem exec_next_of_effect {motive : State → Prop} {i : Instr} {s t : State} (h : exec i s = .next t)
    (hmotive : ∀ u r, motive u → motive (u.setResult r)) (hs : motive s)
    (he : failure i s = none → motive (effect i s)) : motive t := by
  rcases exec_next h with ⟨e, -, rfl⟩ | ⟨hf, rfl⟩
  · exact hmotive _ _ hs
  · exact hmotive _ _ (he hf)

/-! ### The compositor's state -/

@[simp] theorem composited_eq (x y : Reg) (wb rows : Nat) (s : State) :
    composited x y wb rows s = { s with
      v := (s.writeFlag ((drawing1 x y wb rows s).coll || (drawing2 x y wb rows s).coll)).v
      p1 := (drawing1 x y wb rows s).plane
      p2 := (drawing2 x y wb rows s).plane
      dirty := s.dirty || (drawing1 x y wb rows s).changed || (drawing2 x y wb rows s).changed } := rfl

end Sys2Proof.Laws
end

