-- ==== Sys2Proof/Laws/Frame.lean ====
section
/-! SUPPORT. Frames: what each update operation leaves unchanged, said once for each operation, and how a completing or
failing instruction is shown to meet a statement. -/

namespace Sys2Proof.Laws

open Sys2Proof.Machine

theorem frame_refl (s : State) (ps : List Part) : s.unchangedBut ps s := fun p _ => same_refl s p

/-- A frame may name more parts than change. -/
theorem frame_mono {s t : State} {ps qs : List Part} (h : s.unchangedBut ps t) (hsub : ∀ p ∈ ps, p ∈ qs) :
    s.unchangedBut qs t := fun p hp => h p fun hp' => hp (hsub p hp')

/-- Recording the result code leaves every part. -/
theorem frame_setResult {s t : State} {ps : List Part} (h : s.unchangedBut ps t) (r : Result) :
    s.unchangedBut ps (t.setResult r) := fun p hp => by
  have := h p hp
  cases p <;> exact this

theorem frame_setPc (s : State) (w : Word) : s.unchangedBut [.pc] (s.setPc w) := fun p hp => by
  cases p <;> first | rfl | simp at hp

theorem frame_setI (s : State) (a : Word) : s.unchangedBut [.index] (s.setI a) := fun p hp => by
  cases p <;> first | rfl | simp at hp

theorem frame_skipIf (s : State) (c : Bool) : s.unchangedBut [.pc] (s.skipIf c) := by
  cases c
  · exact frame_refl s _
  · exact frame_setPc s _

theorem frame_writeV (s : State) (r : Reg) (b : Byte) : s.unchangedBut [.reg r] (s.writeV r b) := fun p hp => by
  cases p with
  | reg q => exact readV_writeV_ne s (by simpa using hp) b
  | _ => rfl

theorem frame_writeFlag (s : State) (f : Bool) : s.unchangedBut [.reg 15] (s.writeFlag f) := frame_writeV s _ _

theorem frame_writeResult (s : State) (r : Reg) (b : Byte) (f : Bool) :
    s.unchangedBut [.reg r, .reg 15] (s.writeResult r b f) := fun p hp => by
  cases p with
  | reg q =>
    simp at hp
    exact writeResult_other s hp.1 hp.2 b f
  | _ => rfl

theorem frame_push {s : State} {k : Fin 16} (hk : s.sp.val = k.val) (w : Word) (h : s.sp.val < 16) :
    s.unchangedBut [.depth, .stackSlot k] (s.push w h) := fun p hp => by
  cases p with
  | stackSlot j =>
    show (s.stack.set s.sp.val w)[j] = s.stack[j]
    have : s.sp.val ≠ j.val := fun e => hp (by simp; exact Fin.ext (by omega))
    simp [this]
  | depth => simp at hp
  | _ => rfl

/-! ### Completing and failing -/

/-- An instruction whose checks pass completes with its effect. -/
theorem exec_completes_with {i : Instr} {s : State} {P : State → Prop} (h : failure i s = none)
    (hp : P ((effect i s).setResult .ok)) : ∃ t, exec i s = .next t ∧ P t := ⟨_, exec_completes h, hp⟩

/-- An instruction whose check fails reports that error and changes nothing. -/
theorem exec_failsWith {i : Instr} {s : State} {e : Error} (h : failure i s = some e) :
    s.failsWith (exec i s) e := by
  rw [exec_fails h]
  exact failsWith_raise e s

/-! ### Targets (R103) -/

theorem targetFailure_under {c : Config} {n : Nat} (h : n < c.reserved) :
    targetFailure c n = some .addressUnderflow := by simp [targetFailure, h]

theorem targetFailure_over {c : Config} {n : Nat} (h : c.logicalTop ≤ n) (h' : c.reserved ≤ n) :
    targetFailure c n = some .addressOverflow := by
  unfold Config.logicalTop at h
  rw [targetFailure, if_neg (by omega), if_pos (by omega)]

theorem targetFailure_none {c : Config} {n : Nat} (h : n < c.logicalTop) (h' : c.reserved ≤ n) :
    targetFailure c n = none := by
  unfold Config.logicalTop at h
  rw [targetFailure, if_neg (by omega), if_neg (by omega)]

theorem failure_call {nnn : BitVec 12} {s : State} (h : s.sp.val < 16) :
    failure (.call nnn) s = targetFailure s.config nnn.toNat := if_pos h

theorem effect_call {nnn : BitVec 12} {s : State} (h : s.sp.val < 16) :
    effect (.call nnn) s = (s.push s.pc h).setPc (targetOffset s.config nnn.toNat) := dif_pos h

/-- The bytes `BCD` stores (R144). -/
theorem effect_bcd (x : Reg) (s : State) : effect (.bcd x) s = { s with
    mem := memWrite (memWrite (memWrite s.mem
      (s.storedOffset (s.addrAt 0)) (BitVec.ofNat 8 ((s.readV x).toNat / 100)))
      (s.storedOffset (s.addrAt 1)) (BitVec.ofNat 8 ((s.readV x).toNat / 10 % 10)))
      (s.storedOffset (s.addrAt 2)) (BitVec.ofNat 8 ((s.readV x).toNat % 10)) } := rfl

/-- The effect of `AUD` (R184). Rewrite with it first: `rfl` on a field of `effect .aud s` evaluates the sixteen reads. -/
theorem effect_aud (s : State) : effect .aud s = { s with audio := s.audioBytes } := rfl

theorem mem_bytesAt {s : State} {n o : Nat} :
    Part.byte o ∈ s.bytesAt n ↔ ∃ k < n, o = s.storedOffset (s.addrAt k) := by
  simp [State.bytesAt, eq_comm]

/-! ### Parts of an effect that only some instructions write -/

/-- The configuration is the same after every instruction. -/
theorem effect_config (i : Instr) (s : State) : (effect i s).config = s.config := by
  cases i with
  | stm x => rw [effect, storeRegs_eq]; rfl
  | str x y => rw [effect, storeRegs_eq]; rfl
  | ldm x => rw [effect, loadRegs_eq]; rfl
  | ldr x y => rw [effect, loadRegs_eq]; rfl
  | call nnn => unfold effect; dsimp only; split_ifs <;> rfl
  | ldk x => unfold effect; dsimp only; split_ifs <;> rfl
  | sei | snei | ser | sner | skp | sknp => exact skipIf_config _ _
  | _ => rfl

/-- What every write of a byte inside memory keeps holds of memory after every instruction. -/
theorem effect_mem_induction {motive : Memory → Prop} {i : Instr} {s : State} (hf : failure i s = none)
    (h : motive s.mem) (hstep : ∀ m o b, motive m → o < s.config.memSize → motive (memWrite m o b)) :
    motive (effect i s).mem := by
  cases i with
  | stm x => exact storeRegs_mem_induction (lo := 0) h (checkWrites_eq_none.1 hf) hstep
  | str x y => exact storeRegs_mem_induction (lo := rangeLow x y) h (checkWrites_eq_none.1 hf) hstep
  | bcd x =>
    have hw := checkWrites_eq_none.1 hf
    exact hstep _ _ _ (hstep _ _ _ (hstep _ _ _ h (storedOffset_lt (hw 0 (by omega))))
      (storedOffset_lt (hw 1 (by omega)))) (storedOffset_lt (hw 2 (by omega)))
  | ldm x => rw [effect, loadRegs_eq]; exact h
  | ldr x y => rw [effect, loadRegs_eq]; exact h
  | call nnn => unfold effect; dsimp only; split_ifs <;> exact h
  | ldk x => unfold effect; dsimp only; split_ifs <;> exact h
  | sei | snei | ser | sner | skp | sknp => unfold effect; dsimp only; rw [skipIf_mem]; exact h
  | _ => exact h

end Sys2Proof.Laws
end

