-- ==== Sys2Proof/Laws/PerInstr.lean ====
section
/-! SUPPORT. The family `RoundTrip`: decoding an instruction's word gives the instruction back, one lemma per
constructor (R75, R77). -/

set_option Elab.async false

namespace Sys2Proof.Laws

/-- The instruction is what the decoder reads from its word, if it is well-formed. -/
def RoundTrip.Statement (i : Instr) : Prop := i.wf = true → decode (encode i) = .ok i

theorem RoundTrip.cls : RoundTrip.Statement (.cls) := fun _ => by decide
theorem RoundTrip.ret : RoundTrip.Statement (.ret) := fun _ => by decide
theorem RoundTrip.jp (nnn : BitVec 12) : RoundTrip.Statement (.jp nnn) := fun _ => by
  rw [encode, decode_class1 (by simp)]
  simp only [fieldNNN_formatNNN]
theorem RoundTrip.call (nnn : BitVec 12) : RoundTrip.Statement (.call nnn) := fun _ => by
  rw [encode, decode_class2 (by simp)]
  simp only [fieldNNN_formatNNN]
theorem RoundTrip.sei (x : Reg) (nn : Byte) : RoundTrip.Statement (.sei x nn) := fun _ => by
  rw [encode, decode_class3 (by simp)]
  simp only [fieldX_formatXNN, fieldNN_formatXNN]
theorem RoundTrip.snei (x : Reg) (nn : Byte) : RoundTrip.Statement (.snei x nn) := fun _ => by
  rw [encode, decode_class4 (by simp)]
  simp only [fieldX_formatXNN, fieldNN_formatXNN]
theorem RoundTrip.ser (x y : Reg) : RoundTrip.Statement (.ser x y) := fun _ => by
  rw [encode, decode_class5 (by simp)]
  unfold decodeClass5
  simp only [fieldX_formatXYN, fieldY_formatXYN, fieldN_formatXYN]
  rfl
theorem RoundTrip.str (x y : Reg) : RoundTrip.Statement (.str x y) := fun _ => by
  rw [encode, decode_class5 (by simp)]
  unfold decodeClass5
  simp only [fieldX_formatXYN, fieldY_formatXYN, fieldN_formatXYN]
  rfl
theorem RoundTrip.ldr (x y : Reg) : RoundTrip.Statement (.ldr x y) := fun _ => by
  rw [encode, decode_class5 (by simp)]
  unfold decodeClass5
  simp only [fieldX_formatXYN, fieldY_formatXYN, fieldN_formatXYN]
  rfl
theorem RoundTrip.ldn (x : Reg) (nn : Byte) : RoundTrip.Statement (.ldn x nn) := fun _ => by
  rw [encode, decode_class6 (by simp)]
  simp only [fieldX_formatXNN, fieldNN_formatXNN]
theorem RoundTrip.addn (x : Reg) (nn : Byte) : RoundTrip.Statement (.addn x nn) := fun _ => by
  rw [encode, decode_class7 (by simp)]
  simp only [fieldX_formatXNN, fieldNN_formatXNN]
theorem RoundTrip.mov (x y : Reg) : RoundTrip.Statement (.mov x y) := fun _ => by
  rw [encode, decode_class8 (by simp)]
  unfold decodeClass8
  simp only [fieldX_formatXYN, fieldY_formatXYN, fieldN_formatXYN]
  rfl
theorem RoundTrip.or (x y : Reg) : RoundTrip.Statement (.or x y) := fun _ => by
  rw [encode, decode_class8 (by simp)]
  unfold decodeClass8
  simp only [fieldX_formatXYN, fieldY_formatXYN, fieldN_formatXYN]
  rfl
theorem RoundTrip.and (x y : Reg) : RoundTrip.Statement (.and x y) := fun _ => by
  rw [encode, decode_class8 (by simp)]
  unfold decodeClass8
  simp only [fieldX_formatXYN, fieldY_formatXYN, fieldN_formatXYN]
  rfl
theorem RoundTrip.xor (x y : Reg) : RoundTrip.Statement (.xor x y) := fun _ => by
  rw [encode, decode_class8 (by simp)]
  unfold decodeClass8
  simp only [fieldX_formatXYN, fieldY_formatXYN, fieldN_formatXYN]
  rfl
theorem RoundTrip.add (x y : Reg) : RoundTrip.Statement (.add x y) := fun _ => by
  rw [encode, decode_class8 (by simp)]
  unfold decodeClass8
  simp only [fieldX_formatXYN, fieldY_formatXYN, fieldN_formatXYN]
  rfl
theorem RoundTrip.sub (x y : Reg) : RoundTrip.Statement (.sub x y) := fun _ => by
  rw [encode, decode_class8 (by simp)]
  unfold decodeClass8
  simp only [fieldX_formatXYN, fieldY_formatXYN, fieldN_formatXYN]
  rfl
theorem RoundTrip.shr (x y : Reg) : RoundTrip.Statement (.shr x y) := fun _ => by
  rw [encode, decode_class8 (by simp)]
  unfold decodeClass8
  simp only [fieldX_formatXYN, fieldY_formatXYN, fieldN_formatXYN]
  rfl
theorem RoundTrip.subn (x y : Reg) : RoundTrip.Statement (.subn x y) := fun _ => by
  rw [encode, decode_class8 (by simp)]
  unfold decodeClass8
  simp only [fieldX_formatXYN, fieldY_formatXYN, fieldN_formatXYN]
  rfl
theorem RoundTrip.shl (x y : Reg) : RoundTrip.Statement (.shl x y) := fun _ => by
  rw [encode, decode_class8 (by simp)]
  unfold decodeClass8
  simp only [fieldX_formatXYN, fieldY_formatXYN, fieldN_formatXYN]
  rfl
theorem RoundTrip.sner (x y : Reg) : RoundTrip.Statement (.sner x y) := fun _ => by
  rw [encode, decode_class9 (by simp)]
  simp only [fieldX_formatXYN, fieldY_formatXYN, fieldN_formatXYN]
  rfl
theorem RoundTrip.ldi (nnn : BitVec 12) : RoundTrip.Statement (.ldi nnn) := fun _ => by
  rw [encode, decode_classA (by simp)]
  simp only [fieldNNN_formatNNN]
theorem RoundTrip.jp0 (nnn : BitVec 12) : RoundTrip.Statement (.jp0 nnn) := fun _ => by
  rw [encode, decode_classB (by simp)]
  simp only [fieldNNN_formatNNN]
theorem RoundTrip.drwx (x y : Reg) : RoundTrip.Statement (.drwx x y) := fun _ => by
  rw [encode, decode_classD (by simp)]
  simp only [fieldX_formatXYN, fieldY_formatXYN, fieldN_formatXYN]
  rfl
theorem RoundTrip.drw (x y : Reg) (n : BitVec 4) : RoundTrip.Statement (.drw x y n) := fun h => by
  have hn : n ≠ 0 := by simpa [Instr.wf] using h
  rw [encode, decode_classD (by simp)]
  simp only [fieldX_formatXYN, fieldY_formatXYN, fieldN_formatXYN, if_neg hn]
theorem RoundTrip.skp (x : Reg) : RoundTrip.Statement (.skp x) := fun _ => by
  rw [encode, decode_classE (by simp)]
  unfold decodeClassE
  simp only [fieldX_formatXNN, fieldNN_formatXNN]
  rfl
theorem RoundTrip.sknp (x : Reg) : RoundTrip.Statement (.sknp x) := fun _ => by
  rw [encode, decode_classE (by simp)]
  unfold decodeClassE
  simp only [fieldX_formatXNN, fieldNN_formatXNN]
  rfl
theorem RoundTrip.ldl : RoundTrip.Statement (.ldl) := fun _ => by decide
theorem RoundTrip.plane (m : BitVec 2) : RoundTrip.Statement (.plane m) := by
  revert m
  unfold RoundTrip.Statement
  decide
theorem RoundTrip.aud : RoundTrip.Statement (.aud) := fun _ => by decide
theorem RoundTrip.ldvdt (x : Reg) : RoundTrip.Statement (.ldvdt x) := fun _ => by
  rw [encode, decode_classF (by simp)]
  unfold decodeClassF
  simp only [fieldX_formatXNN, fieldNN_formatXNN]
  rfl
theorem RoundTrip.ldk (x : Reg) : RoundTrip.Statement (.ldk x) := fun _ => by
  rw [encode, decode_classF (by simp)]
  unfold decodeClassF
  simp only [fieldX_formatXNN, fieldNN_formatXNN]
  rfl
theorem RoundTrip.lddt (x : Reg) : RoundTrip.Statement (.lddt x) := fun _ => by
  rw [encode, decode_classF (by simp)]
  unfold decodeClassF
  simp only [fieldX_formatXNN, fieldNN_formatXNN]
  rfl
theorem RoundTrip.ldst (x : Reg) : RoundTrip.Statement (.ldst x) := fun _ => by
  rw [encode, decode_classF (by simp)]
  unfold decodeClassF
  simp only [fieldX_formatXNN, fieldNN_formatXNN]
  rfl
theorem RoundTrip.addi (x : Reg) : RoundTrip.Statement (.addi x) := fun _ => by
  rw [encode, decode_classF (by simp)]
  unfold decodeClassF
  simp only [fieldX_formatXNN, fieldNN_formatXNN]
  rfl
theorem RoundTrip.ldf (x : Reg) : RoundTrip.Statement (.ldf x) := fun _ => by
  rw [encode, decode_classF (by simp)]
  unfold decodeClassF
  simp only [fieldX_formatXNN, fieldNN_formatXNN]
  rfl
theorem RoundTrip.bcd (x : Reg) : RoundTrip.Statement (.bcd x) := fun _ => by
  rw [encode, decode_classF (by simp)]
  unfold decodeClassF
  simp only [fieldX_formatXNN, fieldNN_formatXNN]
  rfl
theorem RoundTrip.ldpitch (x : Reg) : RoundTrip.Statement (.ldpitch x) := fun _ => by
  rw [encode, decode_classF (by simp)]
  unfold decodeClassF
  simp only [fieldX_formatXNN, fieldNN_formatXNN]
  rfl
theorem RoundTrip.stm (x : Reg) : RoundTrip.Statement (.stm x) := fun _ => by
  rw [encode, decode_classF (by simp)]
  unfold decodeClassF
  simp only [fieldX_formatXNN, fieldNN_formatXNN]
  rfl
theorem RoundTrip.ldm (x : Reg) : RoundTrip.Statement (.ldm x) := fun _ => by
  rw [encode, decode_classF (by simp)]
  unfold decodeClassF
  simp only [fieldX_formatXNN, fieldNN_formatXNN]
  rfl

end Sys2Proof.Laws
end

