-- ==== Sys2Proof/Laws/Step.lean ====
section
/-! SUPPORT. What one step and one command can do, and induction over command sequences. -/

namespace Sys2Proof.Laws

open Sys2Proof.Machine

theorem fetchWord_none {s : State} (h : s.pc.toNat + 1 ≥ s.config.memSize) : s.fetchWord = none := if_pos h

theorem fetchWord_some {s : State} (h : s.pc.toNat + 1 < s.config.memSize) :
    s.fetchWord = some (wordOfBytes (memRead s.mem s.pc.toNat) (memRead s.mem (s.pc.toNat + 1))) :=
  if_neg (by omega)

theorem fetchWord_isSome {s : State} {w : Word} (h : s.fetchWord = some w) : s.pc.toNat + 1 < s.config.memSize := by
  unfold State.fetchWord at h
  split at h
  · simp at h
  · omega

/-- Big-endian bytes as a number (R57). -/
theorem toNat_wordOfBytes (hi lo : Byte) : (wordOfBytes hi lo).toNat = hi.toNat * 256 + lo.toNat := by
  show (hi ++ lo).toNat = _
  rw [BitVec.toNat_append, ← Nat.shiftLeft_add_eq_or_of_lt lo.isLt, Nat.shiftLeft_eq]

/-- All a step can do (R74): a failed fetch, an invalid word, or a decoded instruction's rule, and then the release
edges are clear. -/
theorem step_cases {s t : State} (h : step s = .next t) :
    (s.fetchWord = none ∧ t = (s.setResult (.error .addressOverflow)).clearReleased) ∨
    (∃ w e, s.fetchWord = some w ∧ decode w = .error e ∧
      t = (s.advance.setResult (.error .invalidInstruction)).clearReleased) ∨
    (∃ w i u, s.fetchWord = some w ∧ decode w = .ok i ∧ exec i s.advance = .next u ∧ t = u.clearReleased) := by
  unfold step at h
  cases hf : s.fetchWord with
  | none =>
    rw [hf] at h
    exact .inl ⟨rfl, by simpa [endOfStep, raise] using h.symm⟩
  | some w =>
    rw [hf] at h
    right
    cases hd : decode w with
    | error e =>
      refine .inl ⟨w, e, rfl, hd, ?_⟩
      simpa [endOfStep, execWord, hd, raise] using h.symm
    | ok i =>
      obtain ⟨u, hu⟩ := exec_answers i s.advance
      refine .inr ⟨w, i, u, rfl, hd, hu, ?_⟩
      simpa [endOfStep, execWord, hd, hu] using h.symm

/-- A step always answers a next state. -/
theorem step_answers (s : State) : ∃ t, step s = .next t := by
  unfold step
  cases hf : s.fetchWord with
  | none => exact ⟨_, rfl⟩
  | some w =>
    cases hd : decode w with
    | error e => exact ⟨_, by simp only [execWord, hd]; rfl⟩
    | ok i =>
      obtain ⟨u, hu⟩ := exec_answers i s.advance
      exact ⟨_, by simp only [execWord, hd, hu]; rfl⟩

theorem command_answers (c : Command) (s : State) : ∃ t, command c s = .next t := by
  cases c with
  | step => exact step_answers s
  | _ => exact ⟨_, rfl⟩

/-- What every command keeps holds after every sequence of commands. -/
theorem runCommands_induction {motive : State → Prop}
    (hstep : ∀ c s t, motive s → command c s = .next t → motive t) (cs : List Command) (s : State) (hs : motive s) :
    ∃ t, runCommands cs s = .next t ∧ motive t := by
  induction cs generalizing s with
  | nil => exact ⟨s, rfl, hs⟩
  | cons c cs ih =>
    obtain ⟨u, hu⟩ := command_answers c s
    obtain ⟨t, ht, hm⟩ := ih u (hstep c s u hs hu)
    exact ⟨t, by simp only [runCommands, hu, ht], hm⟩

/-! ### Key masks -/

theorem getLsbD_setBit (m : BitVec 16) (k : Nat) {j : Nat} (hj : j < 16) :
    (setBit m k).getLsbD j = (m.getLsbD j || decide (j = k)) := by
  unfold setBit
  rw [BitVec.getLsbD_or, BitVec.getLsbD_shiftLeft, BitVec.getLsbD_one]
  congr 1
  by_cases h : j = k
  · subst h; simp [hj]
  · simp [h]; omega

theorem getLsbD_clearBit (m : BitVec 16) (k : Nat) {j : Nat} (hj : j < 16) :
    (clearBit m k).getLsbD j = (m.getLsbD j && !decide (j = k)) := by
  unfold clearBit
  rw [BitVec.getLsbD_and, BitVec.getLsbD_not, BitVec.getLsbD_shiftLeft, BitVec.getLsbD_one]
  congr 1
  by_cases h : j = k
  · subst h; simp [hj]
  · simp [hj, h]; omega

end Sys2Proof.Laws
end

