-- ==== Sys2Proof/Tests/Slice0.lean ====
section
/-! SUPPORT. Tests. Expected values are the spec's own (`95_test_vectors.md`, cited by vector), and words are written
out bit by bit from the encodings of `30_encoding.md` R75 and R77. The last part gives, for every obligation that has
hypotheses, concrete states and operands that meet them. -/

set_option Elab.async false

namespace Sys2Proof.Tests

open Sys2Proof.Machine Sys2Proof.Laws

/-! ### Well-formedness and decoding -/

theorem test_wf_refuses_a_draw_of_height_zero : (Instr.drw 1 2 0).wf = false := by decide

theorem test_wf_accepts_the_extreme_heights : (Instr.drw 1 2 1).wf = true ∧ (Instr.drw 1 2 15).wf = true := by decide

theorem test_decode_control :
    decode 0b0000000011101110 = .ok .ret ∧ decode 0b0001001000000100 = .ok (.jp 0x204) ∧
    decode 0b0010001000010000 = .ok (.call 0x210) ∧ decode 0b0011000100000000 = .ok (.sei 1 0) ∧
    decode 0b0100001000001000 = .ok (.snei 2 8) ∧ decode 0b0101001101000000 = .ok (.ser 3 4) ∧
    decode 0b1001001101000000 = .ok (.sner 3 4) ∧ decode 0b1011001111110000 = .ok (.jp0 0x3F0) := by decide

theorem test_decode_arith :
    decode 0b0110000011001101 = .ok (.ldn 0 0xCD) ∧ decode 0b0111000111111111 = .ok (.addn 1 0xFF) ∧
    decode 0b1000000100100000 = .ok (.mov 1 2) ∧ decode 0b1000000100100001 = .ok (.or 1 2) ∧
    decode 0b1000000100100010 = .ok (.and 1 2) ∧ decode 0b1000000100100011 = .ok (.xor 1 2) ∧
    decode 0b1000111100100100 = .ok (.add 15 2) ∧ decode 0b1000000100100101 = .ok (.sub 1 2) ∧
    decode 0b1000000100100110 = .ok (.shr 1 2) ∧ decode 0b1000000100100111 = .ok (.subn 1 2) ∧
    decode 0b1000000100101110 = .ok (.shl 1 2) := by decide

theorem test_decode_memory :
    decode 0b0101000100110010 = .ok (.str 1 3) ∧ decode 0b0101111111100011 = .ok (.ldr 15 14) ∧
    decode 0b1010001100000000 = .ok (.ldi 0x300) ∧ decode 0b1111000000000000 = .ok .ldl ∧
    decode 0b1111001000011110 = .ok (.addi 2) ∧ decode 0b1111000000101001 = .ok (.ldf 0) ∧
    decode 0b1111000000110011 = .ok (.bcd 0) ∧ decode 0b1111111101010101 = .ok (.stm 15) ∧
    decode 0b1111001001100101 = .ok (.ldm 2) := by decide

theorem test_decode_display :
    decode 0b0000000011100000 = .ok .cls ∧ decode 0b1101000100100101 = .ok (.drw 1 2 5) ∧
    decode 0b1101000000010000 = .ok (.drwx 0 1) ∧ decode 0b1111001100000001 = .ok (.plane 3) := by decide

theorem test_decode_keys_timers_audio :
    decode 0b1110000010011110 = .ok (.skp 0) ∧ decode 0b1110000010100001 = .ok (.sknp 0) ∧
    decode 0b1111010100001010 = .ok (.ldk 5) ∧ decode 0b1111000100000111 = .ok (.ldvdt 1) ∧
    decode 0b1111000000010101 = .ok (.lddt 0) ∧ decode 0b1111001100011000 = .ok (.ldst 3) ∧
    decode 0b1111001000111010 = .ok (.ldpitch 2) ∧ decode 0b1111000000000010 = .ok .aud := by decide

/-- The invalid words of T-EN-1 to T-EN-21. -/
def invalidWords : List Word :=
  [0x0000, 0x00E1, 0x0123, 0x00C1, 0x00FF, 0x5001, 0x5124, 0x8008, 0x812F, 0x9121, 0xC0FF, 0xE000, 0xE19F, 0xF100,
   0xF102, 0xF401, 0xFF01, 0xF030, 0xF075, 0xF085, 0xF0FF]

theorem test_decode_rejects : invalidWords.map decode = invalidWords.map (fun w => .error (.noRow w)) := by decide

theorem test_decode_bytes_in_fetch_order :
    decodeBytes [0x12, 0x34, 0x56] = .ok (.jp 0x234, [0x56]) ∧ decodeBytes [0x12] = .error (.truncated 1) := by decide

theorem test_decodeTableWord_one_word : decodeTableWord 16 0xD125 = some (.drw 1 2 5) := by decide

theorem test_decodeTableWord_two_words : decodeTableWord 32 0x1234F000 = some .ldl := by decide

theorem test_decodeTableWord_rejects : decodeTableWord 16 0xC0FF = none := by decide

/-! ### One step -/

/-- The reset state with an instruction word at `pc`. -/
def at0 (w : Nat) : State := State.reset.withFetchWord 16 w

/-- The state with register values. -/
def withRegs (l : List (Reg × Byte)) (s : State) : State := l.foldl (fun t p => t.writeV p.1 p.2) s

/-- The state with bytes stored from an offset on. -/
def withBytes (o : Nat) (l : List Byte) (s : State) : State := { s with mem := memWriteBytes s.mem o l }

/-- A check of the state after one step. -/
def after (s : State) (f : State → Bool) : Bool :=
  match step s with
  | .next t => f t
  | _ => false

/-- The only set pixel of an otherwise blank plane. -/
def onePixel (x : Fin 128) (y : Fin 64) : Plane := planeFlip Plane.blank x y

/-- T-CF-1, T-CF-2. -/
theorem test_ret : after { at0 0x00EE with sp := 1, stack := (Vector.replicate 16 0).set 0 6 }
      (fun t => t.pc = 6 && t.sp = 0 && t.result = .ok) = true ∧
    after (at0 0x00EE) (fun t => t.pc = 2 && t.sp = 0 && t.result = .error .stackUnderflow) = true := by decide

/-- T-CF-3, T-CF-4. -/
theorem test_jp : after (at0 0x1204) (fun t => t.pc = 4 && t.result = .ok) = true ∧
    after (at0 0x11FF) (fun t => t.pc = 2 && t.result = .error .addressUnderflow) = true := by decide

/-- T-CF-7, T-CF-13. -/
theorem test_call : after (at0 0x2210) (fun t => t.pc = 0x10 && t.sp = 1 && t.stack[0] = 2) = true ∧
    after { at0 0x2100 with sp := 16 } (fun t => t.pc = 2 && t.result = .error .stackOverflow) = true := by decide

/-- T-CF-9, T-CF-17. -/
theorem test_jp0 :
    after (withRegs [(0, 1)] { at0 0xBFFF with config := { defaultConfig with memSize := 0xE00 } })
      (fun t => t.pc = 2 && t.result = .error .addressOverflow) = true ∧
    after (withRegs [(0, 0xFF)] (at0 0xBFFF)) (fun t => t.pc = 0x0EFE) = true := by decide

/-- T-CF-19 to T-CF-26. -/
theorem test_skips : after (at0 0x3100) (fun t => t.pc = 4) = true ∧
    after (withRegs [(2, 7)] (at0 0x4207)) (fun t => t.pc = 2) = true ∧
    after (withRegs [(3, 9), (4, 9)] (at0 0x5340)) (fun t => t.pc = 4) = true ∧
    after (withRegs [(3, 1), (4, 2)] (at0 0x9340)) (fun t => t.pc = 4) = true := by decide

/-- T-AL-1, T-AL-3, T-AL-5. -/
theorem test_immediates_and_copy : after (at0 0x60CD) (fun t => t.readV 0 = 0xCD && t.pc = 2) = true ∧
    after (withRegs [(1, 0xFF)] (at0 0x7101)) (fun t => t.readV 1 = 0 && t.readV 15 = 0) = true ∧
    after (withRegs [(2, 7)] (at0 0x8120)) (fun t => t.readV 1 = 7) = true := by decide

/-- T-AL-6 to T-AL-8, T-AL-10. -/
theorem test_logic :
    after (withRegs [(1, 0x0F), (2, 0xF0), (15, 1)] (at0 0x8121)) (fun t => t.readV 1 = 0xFF && t.readV 15 = 0) = true ∧
    after (withRegs [(1, 0x3C), (2, 0x0F), (15, 1)] (at0 0x8122)) (fun t => t.readV 1 = 0x0C && t.readV 15 = 0) = true ∧
    after (withRegs [(1, 0xFF), (2, 0x0F), (15, 1)] (at0 0x8123)) (fun t => t.readV 1 = 0xF0 && t.readV 15 = 0) = true ∧
    after (withRegs [(1, 0x0C), (15, 3)] (at0 0x81F1)) (fun t => t.readV 1 = 0x0F && t.readV 15 = 0) = true := by decide

/-- T-AL-12, T-AL-13, T-AL-17. -/
theorem test_add :
    after (withRegs [(0, 200), (1, 55), (15, 1)] (at0 0x8014)) (fun t => t.readV 0 = 0xFF && t.readV 15 = 0) = true ∧
    after (withRegs [(0, 200), (1, 56)] (at0 0x8014)) (fun t => t.readV 0 = 0 && t.readV 15 = 1) = true ∧
    after (withRegs [(15, 200), (1, 100)] (at0 0x8F14)) (fun t => t.readV 15 = 1) = true := by decide

/-- T-AL-19, T-AL-21, T-AL-25. -/
theorem test_subtract :
    after (withRegs [(0, 5), (1, 7), (15, 1)] (at0 0x8015)) (fun t => t.readV 0 = 0xFE && t.readV 15 = 0) = true ∧
    after (withRegs [(0, 7), (1, 7)] (at0 0x8015)) (fun t => t.readV 0 = 0 && t.readV 15 = 1) = true ∧
    after (withRegs [(0, 7), (1, 5), (15, 1)] (at0 0x8017)) (fun t => t.readV 0 = 0xFE && t.readV 15 = 0) = true := by
  decide

/-- The variable shift mode. -/
def variableShift (s : State) : State := { s with config := { s.config with shiftByVy := true } }

/-- T-SH-1, T-SH-6, T-SV-1 (a count of 0), and a count of 8: the bit last shifted out. -/
theorem test_shifts :
    after (withRegs [(1, 0x11), (2, 0xFF)] (at0 0x8126)) (fun t => t.readV 1 = 8 && t.readV 15 = 1) = true ∧
    after (withRegs [(15, 0x80)] (at0 0x8F0E)) (fun t => t.readV 15 = 1) = true ∧
    after (variableShift (withRegs [(1, 0xB4), (2, 0), (15, 1)] (at0 0x8126)))
      (fun t => t.readV 1 = 0xB4 && t.readV 15 = 0) = true ∧
    after (variableShift (withRegs [(1, 0xB4), (2, 8)] (at0 0x8126))) (fun t => t.readV 1 = 0 && t.readV 15 = 1) = true := by
  decide

/-- T-MI-1, T-MI-3, T-MI-7, T-MI-9, T-MI-11. -/
theorem test_index : after (at0 0xA300) (fun t => t.i = 0x300) = true ∧
    after (State.reset.withFetchWord 32 0x1234F000) (fun t => t.i = 0x1234 && t.pc = 4) = true ∧
    after (withRegs [(0, 1)] { at0 0xF01E with i := 0xFFFF }) (fun t => t.i = 0 && t.readV 15 = 0) = true ∧
    after (withRegs [(0, 15)] (at0 0xF029)) (fun t => t.i = 0x4B) = true ∧
    after (withRegs [(0, 0x15)] (at0 0xF029)) (fun t => t.i = 0 && t.result = .error .invalidInstruction) = true := by
  decide

/-- T-MI-12, T-MI-17. -/
theorem test_bcd :
    after (withRegs [(0, 205)] { withBytes 0x100 [9, 9, 9] (at0 0xF033) with i := 0x300 })
      (fun t => memRead t.mem 0x100 = 2 && memRead t.mem 0x101 = 0 && memRead t.mem 0x102 = 5 && t.i = 0x300) = true ∧
    after (withRegs [(0, 123)] { at0 0xF033 with i := 0xFFFE })
      (fun t => t.mem = (at0 0xF033).mem && t.result = .error .addressUnderflow) = true := by decide

/-- T-MI-18, T-MI-22, T-MI-27. -/
theorem test_stores :
    after (withRegs [(0, 1), (1, 2)] { at0 0xF155 with i := 0x400 })
      (fun t => memRead t.mem 0x200 = 1 && memRead t.mem 0x201 = 2 && t.i = 0x402) = true ∧
    after (withRegs [(0, 1), (1, 2)] { at0 0xF155 with i := 0xFFFF })
      (fun t => memRead t.mem 0xFDFF = 0 && t.i = 0xFFFF && t.result = .error .addressUnderflow) = true ∧
    after (withRegs [(1, 0x11), (2, 0x22), (3, 0x33)] { at0 0x5132 with i := 0x1234 })
      (fun t => memRead t.mem 0x1034 = 0x11 && memRead t.mem 0x1036 = 0x33 && t.i = 0x1237) = true := by decide

/-- T-MI-24, T-MI-25, T-MI-30. -/
theorem test_loads :
    after (at0 0xF465) (fun t => t.readV 0 = 0xF0 && t.readV 1 = 0x90 && t.readV 4 = 0xF0 && t.i = 5) = true ∧
    after (withRegs [(0, 1)] { at0 0xF265 with i := 0x4E })
      (fun t => t.readV 0 = 1 && t.i = 0x4E && t.result = .error .addressUnderflow) = true ∧
    after { withBytes 0x100 [9, 1] (at0 0x5FE3) with i := 0x300 }
      (fun t => t.readV 14 = 9 && t.readV 15 = 1 && t.i = 0x302) = true := by decide

/-- T-DP-2, T-DP-6. -/
theorem test_cls_and_plane :
    after { at0 0x00E0 with planes := 1, p2 := onePixel 2 2 } (fun t => t.p2 = Plane.blank && t.dirty) = true ∧
    after (at0 0xF301) (fun t => t.planes = 3) = true := by decide

/-- T-DP-12, T-DP-15 (a collision on plane 2 only). -/
theorem test_drw_collision :
    after { withBytes 0x100 [0x80] (at0 0xD001) with planes := 1, i := 0x300, p1 := onePixel 0 0 }
      (fun t => t.readV 15 = 1 && t.dirty && t.p1 = Plane.blank) = true ∧
    after { withBytes 0x100 [0x80, 0x80] (at0 0xD001) with planes := 3, i := 0x300, p2 := onePixel 0 0 }
      (fun t => t.readV 15 = 1 && t.p1 = onePixel 0 0 && t.p2 = Plane.blank) = true := by decide

/-- T-DP-11: glyph 5 drawn over the corner wraps on both axes. -/
theorem test_drw_wraps :
    after (withRegs [(1, 126), (2, 62)] { at0 0xD125 with planes := 1, i := 25 })
      (fun t => planeGet t.p1 126 62 && planeGet t.p1 1 62 && planeGet t.p1 0 0 && planeGet t.p1 126 63 &&
        !planeGet t.p1 127 63 && planeGet t.p1 1 1 && !planeGet t.p1 0 1 && t.readV 15 = 0) = true := by decide

/-- T-DP-23: plane 2's block follows plane 1's thirty-two bytes. -/
theorem test_drwx_two_planes :
    after (withRegs [(1, 56)] { withBytes 0x13F [1] (withBytes 0x100 [0x80] (at0 0xD010)) with planes := 3, i := 0x300 })
      (fun t => t.p1 = onePixel 0 56 && t.p2 = onePixel 15 7 && t.readV 15 = 0) = true := by decide

/-- T-KY-1, T-KY-3, T-KY-7. -/
theorem test_key_skips :
    after (withRegs [(0, 7)] { at0 0xE09E with pressed := 0x0080 }) (fun t => t.pc = 4) = true ∧
    after (withRegs [(0, 16)] { at0 0xE09E with pressed := 0xFFFF }) (fun t => t.pc = 2) = true ∧
    after (withRegs [(0, 0xFF)] { at0 0xE0A1 with pressed := 0xFFFF }) (fun t => t.pc = 4) = true := by decide

/-- T-KY-8, T-KY-10. -/
theorem test_ldk : after (withRegs [(0, 0xEE)] (at0 0xF00A)) (fun t => t.pc = 0 && t.readV 0 = 0xEE) = true ∧
    after { at0 0xF00A with released := 0x8100 } (fun t => t.pc = 2 && t.readV 0 = 8 && t.released = 0) = true := by decide

/-- T-TA-1 to T-TA-4. -/
theorem test_timers : after { at0 0xF107 with dt := 5 } (fun t => t.readV 1 = 5) = true ∧
    after (withRegs [(0, 7)] (at0 0xF015)) (fun t => t.dt = 7) = true ∧
    after (withRegs [(3, 30)] (at0 0xF318)) (fun t => t.st = 30) = true ∧
    after (withRegs [(2, 64)] (at0 0xF23A)) (fun t => t.pitch = 64) = true := by decide

/-- T-TA-6, T-TA-7. -/
theorem test_aud :
    after { at0 0xF002 with i := 0x40 } (fun t => t.audio[0] = 0xF0 && t.audio[1] = 0xE0 && t.audio[15] = 0x80 &&
      t.i = 0x40) = true ∧
    after { at0 0xF002 with i := 0x48 } (fun t => t.audio[0] = 0 && t.result = .error .addressUnderflow) = true := by decide

/-- T-EN-1, T-EN-24, T-MI-5. -/
theorem test_failing_steps :
    after { State.reset with released := 4 }
      (fun t => t.pc = 2 && t.released = 0 && t.result = .error .invalidInstruction) = true ∧
    after { State.reset with pc := 0xFDFF, released := 4 }
      (fun t => t.pc = 0xFDFF && t.released = 0 && t.result = .error .addressOverflow) = true ∧
    after (State.withFetchWord { State.reset with pc := 0xFDFE, i := 0x300 } 32 0xF000)
      (fun t => t.pc = 0xFE00 && t.i = 0x300 && t.result = .error .addressOverflow) = true := by decide

/-! ### Host commands -/

/-- T-TA-8, T-KY-17, T-KY-19, T-HO-8. -/
theorem test_commands : (State.tick { State.reset with dt := 2 }).dt = 1 ∧ (State.tick State.reset).st = 0 ∧
    (State.keyDown (State.keyUp State.reset 3) 3).released = 0 ∧ (State.keyDown State.reset 3).pressed = 8 ∧
    State.keyUp State.reset 16 = State.reset ∧ (State.frameAck { State.reset with dirty := true }).dirty = false := by decide

/-- T-HO-4, T-HO-5, T-HO-10. -/
theorem test_loading : (State.writeRom State.reset [1, 2] 0xFDFF).result = .error .romTooLarge ∧
    (State.writeRom State.reset [] 0xFE00).result = .ok ∧ (State.writeRom State.reset [] 0xFE01).result = .error .romTooLarge ∧
    State.loadRom { State.reset with pressed := 8, released := 16 } [0x12, 0x00] = withBytes 0 [0x12] State.reset := by
  decide

/-! ### The invariant, and the word placed for the next fetch -/

theorem reset_inv : State.reset.Inv := ⟨by decide, by decide, by decide, by decide, by decide⟩

/-- The invariant at its bounds: `pc` at `MEM_SIZE + 2` and the last byte of memory listed. -/
theorem bound_inv : State.Inv { State.reset with pc := 0xFE02, mem := [(0xFDFF, 1)] } :=
  ⟨by decide, by decide, by decide, by decide, by decide⟩

theorem test_withFetchWord_is_fetched : (at0 0x1204).fetchWord = some 0x1204 ∧ (at0 0x1204).pc = State.reset.pc := by decide

/-! ### Witnesses: states and operands that meet the hypotheses of each obligation, clause by clause -/

/-- The result code of a next state. -/
def resultOf (o : Host.Outcome State Fault Refusal) : Option Result :=
  match o with
  | .next t => some t.result
  | _ => none

theorem answers_with {o : Host.Outcome State Fault Refusal} {r : Result} (h : resultOf o = some r) :
    ∃ t, o = .next t ∧ t.result = r := by
  cases o with
  | next t => exact ⟨t, rfl, Option.some.inj h⟩
  | fault f => cases f
  | refused f => cases h

theorem witness_DecodeOfEncode : (Instr.drw 0 15 1).wf = true ∧ (Instr.drw 15 0 15).wf = true ∧
    (Instr.plane 3).wf = true ∧ (Instr.jp 0xFFF).wf = true := by decide

theorem witness_EncodeOfDecode : decode 0xD12F = .ok (.drw 1 2 15) ∧ decode 0xF000 = .ok .ldl := by decide

theorem witness_StepFollowsItsAlgorithm_no_fetch : (0xFDFF : Word).toNat + 1 ≥ State.reset.config.memSize := by decide

theorem witness_StepFollowsItsAlgorithm_fetch : (0xFDFE : Word).toNat + 1 < State.reset.config.memSize ∧
    decode (BitVec.ofNat 16 (0x12 * 256 + 0x04)) = .ok (.jp 0x204) ∧
    decode (BitVec.ofNat 16 0) = .error (.noRow 0) ∧
    (∃ t, exec (.jp 0x204) { State.reset with pc := 0xFE00 } = .next t ∧ t.result = .ok) :=
  ⟨by decide, by decide, by decide, answers_with (by decide)⟩

theorem witness_StepRunsDecodedInstruction : (at0 0x1204).fetchWord = some 0x1204 ∧ decode 0x1204 = .ok (.jp 0x204) := by
  decide

theorem witness_FetchPastMemoryFails :
    (State.pc { State.reset with pc := 0xFDFF }).toNat + 1 ≥ State.reset.config.memSize := by decide

theorem witness_FailedStepIsPrecise_fetched :
    ∃ t, step (at0 0xF401) = .next t ∧ t.result = .error .invalidInstruction := answers_with (by decide)

theorem witness_FailedStepIsPrecise_not_fetched :
    ∃ t, step { State.reset with pc := 0xFDFF } = .next t ∧ t.result = .error .addressOverflow :=
  answers_with (by decide)

theorem witness_StepKeepsInvariant : State.reset.Inv ∧ (∃ t, step State.reset = .next t) ∧
    State.Inv { State.reset with pc := 0xFE02, mem := [(0xFDFF, 1)] } :=
  ⟨reset_inv, step_answers _, bound_inv⟩

theorem witness_CommandSequencesKeepInvariant : State.reset.Inv := reset_inv

theorem witness_MemoryReadAfterWrite : Memory.wf [(0, 1), (65023, 2)] := by decide

theorem witness_CanonicalMemoryIsDeterminedByItsBytes :
    Memory.wf (memWrite (memWrite [] 5 2) 0 1) ∧ Memory.wf (memWrite (memWrite (memWrite [] 0 1) 7 3) 5 2) ∧
    Memory.wf (memWrite (memWrite (memWrite (memWrite [] 0 1) 7 3) 5 2) 7 0) ∧
    ∀ o, memRead (memWrite (memWrite [] 5 2) 0 1) o =
      memRead (memWrite (memWrite (memWrite (memWrite [] 0 1) 7 3) 5 2) 7 0) o :=
  ⟨by decide, by decide, by decide, fun o => congrArg (memRead · o) (by decide)⟩

/-- For the five rules about all instructions: an execution whose instruction is in none of their lists. -/
theorem witness_whole_machine_rules :
    (∃ t, exec (.ldn 1 2) State.reset = .next t) ∧
    (Instr.ldn 1 2).mnemonic ∉ ["BCD", "STM", "STR", "CALL", "RET", "CLS", "DRW", "DRWX", "PLANE", "LDDT", "LDST",
      "LDPITCH", "AUD", "LDI", "LDL", "ADDI", "LDF", "LDM", "LDR", "SEI", "SNEI", "SER", "SNER", "SKP", "SKNP", "JP",
      "JP0", "LDK"] := ⟨exec_answers _ _, by decide⟩

theorem witness_FlagRegisterWriters_outside : (∃ t, exec (.ldr 0 14) State.reset = .next t) ∧
    (0 : Reg) ≠ 15 ∧ (14 : Reg) ≠ 15 ∧ (Instr.ldr 0 14).mnemonic ∉
      ["OR", "AND", "XOR", "ADD", "SUB", "SUBN", "SHR", "SHL", "DRW", "DRWX"] :=
  ⟨exec_answers _ _, by decide, by decide, by decide⟩

theorem witness_FlagRegisterWriters_inside :
    (∃ t, exec (.add 15 15) State.reset = .next t ∧ t.result = .ok) ∧
    (∃ t, exec (.drw 0 1 1) State.reset = .next t ∧ t.result = .ok) :=
  ⟨answers_with (by decide), answers_with (by decide)⟩

/-! #### Control flow -/

theorem witness_ReturnPopsTheStack : State.reset.sp = 0 ∧
    (State.sp { State.reset with sp := 1 }).val = (0 : Fin 16).val + 1 ∧
    (State.sp { State.reset with sp := 16 }).val = (15 : Fin 16).val + 1 := by decide

/-- The default block with another memory size. -/
def sized (n : Nat) : State := State.resetWith { defaultConfig with memSize := n }

/-- T-CF-9 to T-CF-12: the two bounds of `JP` and of `JP0`. -/
theorem witness_JumpsTranslateTheirTarget :
    (0x1FF#12).toNat < State.reset.config.reserved ∧
    State.reset.config.reserved ≤ (0x200#12).toNat ∧ (0x200#12).toNat < State.reset.config.logicalTop ∧
    (sized 0xC00).config.logicalTop ≤ (0xE00#12).toNat ∧ (0xDFF#12).toNat < (sized 0xC00).config.logicalTop ∧
    (sized 0xE00).config.logicalTop ≤ (0xFFF#12).toNat + ((withRegs [(0, 1)] (sized 0xE00)).readV 0).toNat ∧
    (0xFFF#12).toNat + ((sized 0xE00).readV 0).toNat < (sized 0xE00).config.logicalTop := by decide

/-- The depth clauses of `CALL` at their bounds; its target clauses are those of the jumps. -/
theorem witness_CallPushesAndJumps : State.sp { State.reset with sp := 16 } = 16 ∧
    (State.sp { State.reset with sp := 15 }).val = (15 : Fin 16).val ∧ State.reset.sp.val = (0 : Fin 16).val := by decide

theorem witness_ReturnUndoesCall : ∃ t, exec (.call 0x210) { State.reset with sp := 15 } = .next t ∧ t.result = .ok :=
  answers_with (by decide)

/-- Both values of each condition (T-CF-19 to T-CF-26); the forms themselves hold by reflexivity. -/
theorem witness_SkipsAddOneInstructionWidth :
    decide (State.reset.readV 1 = 0x00) = true ∧ decide (State.reset.readV 1 = 0xFF) = false ∧
    decide (State.reset.readV 1 = State.reset.readV 1) = true ∧
    decide ((withRegs [(3, 1)] State.reset).readV 3 ≠ (withRegs [(3, 1)] State.reset).readV 4) = true := by decide

/-! #### Keys -/

/-- Key 15 pressed, and a key number just above the range. -/
theorem witness_KeySkipsTestThePressedMask :
    (((withRegs [(0, 15)] State.reset).readV 0).toNat ≤ 15 ∧ (0x8000#16).getLsbD 15 = true) ∧
    ¬ ((withRegs [(0, 16)] State.reset).readV 0).toNat ≤ 15 := by decide

theorem witness_WaitForKeyPollsTheReleaseEdges : State.reset.released = 0 ∧
    ((0x8000#16).getLsbD (15 : Fin 16).val = true ∧ ∀ j : Fin 16, j < 15 → (0x8000#16).getLsbD j.val = false) ∧
    ((0x0001#16).getLsbD (0 : Fin 16).val = true ∧ ∀ j : Fin 16, j < 0 → (0x0001#16).getLsbD j.val = false) := by decide

theorem witness_KeyReleaseEndsTheWait : (at0 0xF50A).released = 0 ∧ (at0 0xF50A).fetchWord = some 0xF50A ∧
    decode 0xF50A = .ok (.ldk 5) := by decide

/-! #### Arithmetic -/

theorem witness_LogicWritesItsResultThenZeroesTheFlag :
    (Instr.or 1 2 = .or 1 2 ∧ (fun a b : Bool => a || b) = fun a b => a || b) ∧
    (Instr.and 1 2 = .and 1 2 ∧ (fun a b : Bool => a && b) = fun a b => a && b) ∧
    (Instr.xor 1 2 = .xor 1 2 ∧ (fun a b : Bool => a ^^ b) = fun a b => a ^^ b) ∧ (1 : Reg) ≠ 15 :=
  ⟨⟨rfl, rfl⟩, ⟨rfl, rfl⟩, ⟨rfl, rfl⟩, by decide⟩

theorem witness_AddWritesSumThenCarry : (0 : Reg) ≠ 15 ∧ 200 + 56 > 255 ∧ ¬ 200 + 55 > 255 := by decide

theorem witness_SubtractsWriteDifferenceThenNotBorrow :
    (Instr.sub 0 1 = .sub 0 1 ∧ (0 : Nat) = (State.reset.readV 0).toNat ∧ (0 : Nat) = (State.reset.readV 1).toNat) ∧
    (Instr.subn 0 1 = .subn 0 1 ∧ (5 : Nat) = ((withRegs [(1, 5)] State.reset).readV 1).toNat ∧
      (0 : Nat) = ((withRegs [(1, 5)] State.reset).readV 0).toNat) := by decide

theorem witness_ShiftsByOneInDefaultMode : State.reset.config.shiftByVy = false := by decide

theorem witness_ShiftsByRegisterInVariableMode : (variableShift State.reset).config.shiftByVy = true := by decide

/-! #### Index register and memory -/

theorem witness_LongIndexLoadFetchesItsImmediate :
    (State.pc { State.reset with pc := 0xFDFF }).toNat + 1 ≥ State.reset.config.memSize ∧
    (State.pc { State.reset with pc := 0xFDFE }).toNat + 1 < State.reset.config.memSize := by decide

theorem witness_FontAddressIsRangeChecked :
    ((withRegs [(0, 16)] State.reset).readV 0).toNat ≥ State.reset.config.fontGlyphs ∧
    ((withRegs [(0, 15)] State.reset).readV 0).toNat < State.reset.config.fontGlyphs := by decide

/-- Stores at the bottom and at the top of the stored memory. -/
theorem witness_BcdStoresThreeDigits :
    (∀ k < 3, State.canWrite { State.reset with i := 0x200 } (State.addrAt { State.reset with i := 0x200 } k)) ∧
    (∀ k < 3, State.canWrite { State.reset with i := 0xFFFD } (State.addrAt { State.reset with i := 0xFFFD } k)) := by
  unfold State.canWrite
  decide

theorem witness_RegisterStoresCopyAndMoveIndex :
    (Instr.stm 15 = .stm 15 ∧ (0 : Nat) = 0 ∧ (16 : Nat) = (15 : Reg).val + 1) ∧
    (Instr.str 3 1 = .str 3 1 ∧ (1 : Nat) = min (3 : Reg).val (1 : Reg).val ∧
      (3 : Nat) = max (3 : Reg).val (1 : Reg).val - min (3 : Reg).val (1 : Reg).val + 1) ∧
    (∀ k < 16, State.canWrite { State.reset with i := 0xFFF0 } (State.addrAt { State.reset with i := 0xFFF0 } k)) := by
  unfold State.canWrite
  decide

/-- Loads from the font and from the last byte of memory. -/
theorem witness_RegisterLoadsCopyAndMoveIndex :
    (Instr.ldm 15 = .ldm 15 ∧ (0 : Nat) = 0 ∧ (16 : Nat) = (15 : Reg).val + 1) ∧
    (Instr.ldr 4 4 = .ldr 4 4 ∧ (4 : Nat) = min (4 : Reg).val (4 : Reg).val ∧
      (1 : Nat) = max (4 : Reg).val (4 : Reg).val - min (4 : Reg).val (4 : Reg).val + 1) ∧
    (∀ k < 16, State.canRead State.reset (State.addrAt State.reset k)) ∧
    (∀ k < 1, State.canRead { State.reset with i := 0xFFFF } (State.addrAt { State.reset with i := 0xFFFF } k)) := by
  unfold State.canRead
  decide

theorem witness_LoadUndoesStore : State.reset.config.fontSize ≤ State.reset.config.reserved ∧ (1 : Reg) ≤ 2 ∧
    (min (3 : Reg) 1 ≤ 1 ∧ (1 : Reg) ≤ max 3 1) ∧
    (∃ t, exec (.stm 2) { State.reset with i := 0x300 } = .next t ∧ t.result = .ok) ∧
    (∃ t, exec (.str 3 1) { State.reset with i := 0x300 } = .next t ∧ t.result = .ok) :=
  ⟨by decide, by decide, by decide, answers_with (by decide), answers_with (by decide)⟩

/-- The second byte of a store wraps to the font (T-MI-17, T-MI-22); the first is past a smaller memory (T-MI-31). -/
theorem witness_FailingStoreChangesNothing :
    (∀ j < 1, State.canWrite { State.reset with i := 0xFFFF } (State.addrAt { State.reset with i := 0xFFFF } j)) ∧
    ¬ State.canWrite { State.reset with i := 0xFFFF } (State.addrAt { State.reset with i := 0xFFFF } 1) ∧
    ¬ State.canWrite { sized 0xE00 with i := 0x1000 } (State.addrAt { sized 0xE00 with i := 0x1000 } 0) ∧
    1 < 3 ∧ 1 < (1 : Reg).val + 1 ∧ 1 < max (1 : Reg).val (2 : Reg).val - min (1 : Reg).val (2 : Reg).val + 1 := by
  unfold State.canWrite
  decide

/-- A read runs off the font at its third byte (T-MI-25, T-DP-21), within the length of every form. -/
theorem witness_FailingReadChangesNothing :
    (∀ j < 2, State.canRead { State.reset with i := 0x4E, planes := 3 }
      (State.addrAt { State.reset with i := 0x4E, planes := 3 } j)) ∧
    ¬ State.canRead { State.reset with i := 0x4E, planes := 3 }
      (State.addrAt { State.reset with i := 0x4E, planes := 3 } 2) ∧
    2 < (2 : Reg).val + 1 ∧ 2 < max (1 : Reg).val (3 : Reg).val - min (1 : Reg).val (3 : Reg).val + 1 ∧ 2 < 16 ∧
    2 < (State.selectedCount { State.reset with i := 0x4E, planes := 3 }) * (2#4).toNat ∧
    2 < (State.selectedCount { State.reset with i := 0x4E, planes := 3 }) * 32 := by
  unfold State.canRead
  decide

/-! #### Display and audio -/

theorem witness_PlaneSelectSetsTheMask : (4 : Reg) > 3 ∧ (15 : Reg) > 3 := by decide

theorem witness_DrawTogglesTheWrappedSprite :
    (Instr.drw 0 1 15 = .drw 0 1 15 ∧ (1 : Nat) = 1 ∧ (15 : Nat) = (15#4).toNat) ∧
    (Instr.drwx 0 1 = .drwx 0 1 ∧ (2 : Nat) = 2 ∧ (16 : Nat) = 16) ∧
    (∀ j < (State.selectedCount { State.reset with planes := 3 }) * (2 * 16),
      State.canRead { State.reset with planes := 3 } (State.addrAt { State.reset with planes := 3 } j)) := by
  unfold State.canRead
  decide

theorem witness_DrawWithNoPlaneOnlyClearsTheFlag : State.reset.planes = 0 := by decide

/-- A draw of the second glyph row of 0 over a blank display completes and leaves its coordinates' registers. -/
theorem witness_DrawTwiceRestoresThePlanes : ∃ t, exec (.drw 0 1 5) { State.reset with planes := 3 } = .next t ∧
    t.result = .ok ∧ t.readV 0 = State.readV { State.reset with planes := 3 } 0 ∧
    t.readV 1 = State.readV { State.reset with planes := 3 } 1 := by
  obtain ⟨t, ht, hr⟩ := answers_with (o := exec (.drw 0 1 5) { State.reset with planes := 3 }) (r := .ok) (by decide)
  obtain ⟨-, rfl⟩ := exec_ok ht hr
  exact ⟨_, ht, hr, writeFlag_readV _ (by decide) _, writeFlag_readV _ (by decide) _⟩

theorem witness_StageAudioCopiesSixteenBytes :
    (∀ k < 16, State.canRead { State.reset with i := 0x40 } (State.addrAt { State.reset with i := 0x40 } k)) ∧
    (∀ k < 16, State.canRead { State.reset with i := 0xFFF0 } (State.addrAt { State.reset with i := 0xFFF0 } k)) := by
  unfold State.canRead
  decide

/-! #### Host commands -/

/-- Steps of an instruction that is neither timer load, and of each of them. -/
theorem witness_TickCountsDownToZero : (∃ t, step (at0 0x6005) = .next t) ∧ (at0 0x6005).fetchWord = some 0x6005 ∧
    decode 0x6005 = .ok (.ldn 0 5) ∧ (at0 0xF015).fetchWord = some 0xF015 ∧ decode 0xF015 = .ok (.lddt 0) :=
  ⟨step_answers _, by decide, by decide, by decide, by decide⟩

theorem witness_KeyEventsDriveTheLatch : ∃ t, step (State.keyUp State.reset 15) = .next t := step_answers _

/-- T-HO-1, T-HO-2: a program of exactly the memory's size, and one byte more. -/
theorem witness_LoadRomReplacesMemory :
    (List.replicate 65025 (0 : Byte)).length > State.reset.config.memSize ∧
    (List.replicate 65024 (0 : Byte)).length ≤ State.reset.config.memSize := by
  rw [List.length_replicate, List.length_replicate]
  decide

/-- T-HO-3, T-HO-4. -/
theorem witness_WriteRomPatchesMemory :
    0xFDFF + ([1, 2] : List Byte).length > State.reset.config.memSize ∧
    0xFDFE + ([1, 2] : List Byte).length ≤ State.reset.config.memSize := by decide

theorem witness_PatchedWordIsFetchedNext : State.reset.pc.toNat + 1 < State.reset.config.memSize := by decide

end Sys2Proof.Tests
end

/-! ## Proofs: the step (`30_encoding.md` R70 to R74) -/

namespace Sys2Proof.Proofs.Encoding

open Sys2Proof.Machine Sys2Proof.Laws

/-- Big-endian concatenation is the number `hi * 256 + lo` (R57). -/
theorem wordOfBytes_eq_ofNat (hi lo : Byte) : wordOfBytes hi lo = BitVec.ofNat 16 (hi.toNat * 256 + lo.toNat) := by
  rw [← toNat_wordOfBytes, BitVec.ofNat_toNat, BitVec.setWidth_eq]

/-- Clearing the latch (R74) leaves every other part. -/
theorem frame_clearReleased (s : State) : s.unchangedBut [.released] s.clearReleased := fun p hp => by
  cases p with
  | released => exact absurd (List.mem_singleton.mpr rfl) hp
  | _ => rfl

/-! ### One equation for each way a step can end -/

/-- A failed fetch (R70). -/
theorem step_of_fetchWord_none {s : State} (hf : s.fetchWord = none) :
    step s = .next (s.setResult (.error .addressOverflow)).clearReleased := by
  simp only [step, hf, raise, endOfStep]

/-- A fetched word that is no instruction (R86). -/
theorem step_of_decode_error {s : State} {w : Word} {e : DecodeError} (hf : s.fetchWord = some w)
    (hd : decode w = .error e) : step s = .next (s.advance.setResult (.error .invalidInstruction)).clearReleased := by
  simp only [step, hf, execWord, hd, raise, endOfStep]

/-- A fetched word that decodes runs its row's rule on the advanced state (R71, R73). -/
theorem step_of_decode_ok {s : State} {w : Word} {i : Instr} (hf : s.fetchWord = some w) (hd : decode w = .ok i) :
    step s = endOfStep (exec i s.advance) := by
  simp only [step, hf, execWord, hd]

/-! ### The statements -/

/-- Settles O5: each clause is the step's equation for its way to end, with the fetched word written as a number. -/
theorem stepFollowsItsAlgorithm : Obligations.StepFollowsItsAlgorithm := by
  intro s w a
  refine ⟨fun hout => step_of_fetchWord_none (fetchWord_none hout), fun hin => ?_⟩
  have hf : s.fetchWord = some w := by rw [fetchWord_some hin, wordOfBytes_eq_ofNat]
  refine ⟨fun e hd => step_of_decode_error hf hd, fun i t hd hx => ?_⟩
  calc step s = endOfStep (exec i a) := step_of_decode_ok hf hd
    _ = .next t.clearReleased := by rw [hx, endOfStep]

/-- Settles O7: recording the result code changes no part, so the latch clear is the only change. -/
theorem fetchPastMemoryFails : Obligations.FetchPastMemoryFails := by
  intro s hout
  have hframe := frame_setResult (frame_clearReleased s) (.error .addressOverflow)
  exact ⟨_, step_of_fetchWord_none (fetchWord_none hout), rfl, hframe, rfl⟩

end Sys2Proof.Proofs.Encoding

/-! ## Proofs: the host commands (`50_host_interface.md` R201, R206 to R208) -/

namespace Sys2Proof.Proofs.HostInterface

open Sys2Proof.Machine Sys2Proof.Laws

/-! ### What a step keeps -/

/-- A field that neither the end of a step nor the advance touches is what the decoded instruction's effect leaves. -/
theorem step_keeps {α : Type} {field : State → α} {s t : State} (h : step s = .next t)
    (hresult : ∀ u r, field (u.setResult r) = field u) (hclear : ∀ u, field u.clearReleased = field u)
    (hadvance : field s.advance = field s)
    (heffect : ∀ w i, s.fetchWord = some w → decode w = .ok i → field (effect i s.advance) = field s.advance) :
    field t = field s := by
  obtain ⟨-, rfl⟩ | ⟨w, e, -, -, rfl⟩ | ⟨w, i, u, hf, hd, hx, rfl⟩ := step_cases h
  · rw [hclear, hresult]
  · rw [hclear, hresult, hadvance]
  · obtain ⟨e, -, rfl⟩ | ⟨-, rfl⟩ := exec_next hx
    · rw [hclear, hresult, hadvance]
    · rw [hclear, hresult, heffect w i hf hd, hadvance]

/-- Every way a step can end passes through the latch clear (R74). -/
theorem step_released {s t : State} (h : step s = .next t) : t.released = 0 := by
  obtain ⟨-, rfl⟩ | ⟨w, e, -, -, rfl⟩ | ⟨w, i, u, -, -, -, rfl⟩ := step_cases h <;> exact clearReleased_released _

/-- Only `LDDT` writes `DT`, and only `LDST` writes `ST` (R26). -/
theorem effect_timers (i : Instr) (s : State) :
    ((∀ x, i ≠ .lddt x) → (effect i s).dt = s.dt) ∧ ((∀ x, i ≠ .ldst x) → (effect i s).st = s.st) := by
  cases i with
  | lddt x => exact ⟨fun h => absurd rfl (h x), fun _ => rfl⟩
  | ldst x => exact ⟨fun _ => rfl, fun h => absurd rfl (h x)⟩
  | stm | str => rw [effect, storeRegs_eq]; exact ⟨fun _ => rfl, fun _ => rfl⟩
  | ldm | ldr => rw [effect, loadRegs_eq]; exact ⟨fun _ => rfl, fun _ => rfl⟩
  | call | ldk => unfold effect; dsimp only; split_ifs <;> exact ⟨fun _ => rfl, fun _ => rfl⟩
  | sei | snei | ser | sner | skp | sknp => exact ⟨fun _ => skipIf_dt _ _, fun _ => skipIf_st _ _⟩
  | aud => rw [effect_aud]; exact ⟨fun _ => rfl, fun _ => rfl⟩
  | bcd => rw [effect_bcd]; exact ⟨fun _ => rfl, fun _ => rfl⟩
  | _ => exact ⟨fun _ => rfl, fun _ => rfl⟩

/-! ### The timers (R206) -/

/-- Natural subtraction is the floor at 0. -/
theorem toNat_countDown (b : Byte) : (countDown b).toNat = b.toNat - 1 := by
  unfold countDown
  split_ifs with h
  · exact BitVec.toNat_sub_of_le (BitVec.le_def.2 h)
  · omega

theorem frame_tick (s : State) : s.unchangedBut [.dt, .st] s.tick := fun p hp => by
  cases p with
  | dt | st => simp at hp
  | _ => rfl

/-! ### The key masks (R207, R208) -/

theorem setBit_of_ge (m : BitVec 16) {k : Nat} (hk : 16 ≤ k) : setBit m k = m := by
  rw [setBit, BitVec.shiftLeft_eq_zero hk, BitVec.or_zero]

theorem clearBit_of_ge (m : BitVec 16) {k : Nat} (hk : 16 ≤ k) : clearBit m k = m := by
  rw [clearBit, BitVec.shiftLeft_eq_zero hk, BitVec.not_zero, BitVec.and_allOnes]

/-- The bound on key numbers is invisible: a bit above 15 is no bit of a mask. -/
theorem keyDown_eq (s : State) (k : Nat) :
    s.keyDown k = { s with pressed := setBit s.pressed k, released := clearBit s.released k } := by
  unfold State.keyDown
  split_ifs with hk
  · rfl
  · rw [setBit_of_ge _ (by omega), clearBit_of_ge _ (by omega)]

theorem keyUp_eq (s : State) (k : Nat) :
    s.keyUp k = { s with pressed := clearBit s.pressed k, released := setBit s.released k } := by
  unfold State.keyUp
  split_ifs with hk
  · rfl
  · rw [setBit_of_ge _ (by omega), clearBit_of_ge _ (by omega)]

theorem frame_keyMasks (s : State) (pressed released : BitVec 16) :
    s.unchangedBut [.pressed, .released] { s with pressed, released } := fun p hp => by
  cases p with
  | pressed | released => simp at hp
  | _ => rfl

/-! ### The statements -/

/-- Settles O54: the command by the floor of the count and its frame; the step because it ends in the effect of an
instruction, and each timer has one writer. -/
theorem tickCountsDownToZero : Obligations.TickCountsDownToZero := by
  refine ⟨fun s => ⟨s.tick, rfl, toNat_countDown _, toNat_countDown _, frame_tick s⟩, fun s t h => ⟨?_, ?_⟩⟩
  · exact fun hno => step_keeps h setResult_dt clearReleased_dt (advance_dt s) fun w i hf hd =>
      (effect_timers i s.advance).1 fun x hi => hno w x hf (hi ▸ hd)
  · exact fun hno => step_keeps h setResult_st clearReleased_st (advance_st s) fun w i hf hd =>
      (effect_timers i s.advance).2 fun x hi => hno w x hf (hi ▸ hd)

/-- Settles O55: both events are one update of the two masks for every key number, read back bit by bit. -/
theorem keyEventsDriveTheLatch : Obligations.KeyEventsDriveTheLatch := by
  refine ⟨fun k s => ⟨⟨s.keyDown k, rfl, ?_⟩, ⟨s.keyUp k, rfl, ?_⟩⟩, fun s t => step_released⟩
  · rw [keyDown_eq]
    exact ⟨frame_keyMasks s _ _, fun j hj => getLsbD_setBit _ k hj, fun j hj => getLsbD_clearBit _ k hj⟩
  · rw [keyUp_eq]
    exact ⟨frame_keyMasks s _ _, fun j hj => getLsbD_clearBit _ k hj, fun j hj => getLsbD_setBit _ k hj⟩

/-- Settles O13: the reset state depends on the configuration alone, and every element of it reads 0. -/
theorem resetZeroesAllState : Obligations.ResetZeroesAllState := by
  intro s
  have hregs : ∀ r, s.resetCommand.readV r = 0 := fun r => Vector.getElem_replicate r.isLt
  have hstack : ∀ k : Fin 16, s.resetCommand.stack[k] = 0 := fun k => Vector.getElem_replicate k.isLt
  have haudio : ∀ k : Fin 16, s.resetCommand.audio[k] = 0 := fun k => Vector.getElem_replicate k.isLt
  exact ⟨s.resetCommand, rfl, rfl, rfl, hregs, rfl, rfl, rfl, hstack, rfl, rfl, rfl, rfl, rfl,
    fun px py => ⟨planeGet_blank px py, planeGet_blank px py⟩, haudio, rfl, rfl, fun _ => rfl⟩

end Sys2Proof.Proofs.HostInterface

/-! ## Proofs: decoding and encoding (`30_encoding.md` R73 to R78, R86) -/

namespace Sys2Proof.Proofs.Decoder

open Sys2Proof.Machine Sys2Proof.Laws

/-! ### A word of a known class is its format's word -/

section Formats

variable {w : Word} {c : BitVec 4}

theorem formatNNN_of_class (hc : fieldClass w = c) : formatNNN c (fieldNNN w) = w := hc ▸ formatNNN_fields w

theorem formatXNN_of_class (hc : fieldClass w = c) : formatXNN c (fieldX w) (fieldNN w) = w :=
  hc ▸ formatXNN_fields w

theorem formatXNN_of_discriminant {kk : Byte} (hc : fieldClass w = c) (hk : (fieldNN w).toNat = kk.toNat) :
    formatXNN c (fieldX w) kk = w := BitVec.eq_of_toNat_eq hk ▸ formatXNN_of_class hc

theorem formatXYN_of_nibble {n : BitVec 4} (hc : fieldClass w = c) (hn : (fieldN w).toNat = n.toNat) :
    formatXYN c (fieldX w) (fieldY w) n = w := by
  rw [← BitVec.eq_of_toNat_eq hn, ← hc]
  exact formatXYN_fields w

end Formats

/-- The mask of `PLANE` is the whole of `X` when `X` is at most 3 (R161). -/
theorem setWidth_fieldPlanes {w : Word} (hx : fieldX w ≤ 3) : ((fieldPlanes w).setWidth 4).toFin = fieldX w := by
  have hlow : fieldPlanes w = (BitVec.ofFin (w := 4) (fieldX w)).setWidth 2 := by
    refine BitVec.eq_of_getLsbD_eq fun k hk => ?_
    have hk4 : k < 4 := by omega
    simp only [fieldPlanes, fieldX, BitVec.ofFin_toFin, BitVec.getLsbD_setWidth, BitVec.getLsbD_extractLsb', hk, hk4,
      decide_true, Bool.true_and]
  rw [hlow]
  revert hx
  generalize fieldX w = x
  revert x
  decide

/-! ### Encoding inverts the second level of the dispatch (R78) -/

/-- The instruction is well-formed and `w` is its word. -/
def IsWordOf (w : Word) (i : Instr) : Prop := i.wf = true ∧ encode i = w

theorem isWordOf_of_decodeClass5 {w : Word} {i : Instr} (hc : fieldClass w = 0x5) (h : decodeClass5 w = .ok i) :
    IsWordOf w i := by
  unfold decodeClass5 at h
  split at h <;> cases h <;> exact ⟨rfl, formatXYN_of_nibble hc ‹_›⟩

theorem isWordOf_of_decodeClass8 {w : Word} {i : Instr} (hc : fieldClass w = 0x8) (h : decodeClass8 w = .ok i) :
    IsWordOf w i := by
  unfold decodeClass8 at h
  split at h <;> cases h <;> exact ⟨rfl, formatXYN_of_nibble hc ‹_›⟩

theorem isWordOf_of_decodeClassE {w : Word} {i : Instr} (hc : fieldClass w = 0xE) (h : decodeClassE w = .ok i) :
    IsWordOf w i := by
  unfold decodeClassE at h
  split at h <;> cases h <;> exact ⟨rfl, formatXNN_of_discriminant hc ‹_›⟩

/-- In the class `0xF` three rows restrict `X` as well. -/
theorem isWordOf_of_decodeClassF {w : Word} {i : Instr} (hc : fieldClass w = 0xF) (h : decodeClassF w = .ok i) :
    IsWordOf w i := by
  have hword : ∀ kk : Byte, (fieldNN w).toNat = kk.toNat → formatXNN 0xF (fieldX w) kk = w :=
    fun kk => formatXNN_of_discriminant hc
  unfold decodeClassF at h
  split at h
  case h_1 hk =>
    split_ifs at h with hx
    cases h
    have hw := hword 0x00 hk
    rw [hx] at hw
    exact ⟨rfl, hw⟩
  case h_2 hk =>
    split_ifs at h with hx
    cases h
    have hw := hword 0x01 hk
    rw [← setWidth_fieldPlanes hx] at hw
    exact ⟨rfl, hw⟩
  case h_3 hk =>
    split_ifs at h with hx
    cases h
    have hw := hword 0x02 hk
    rw [hx] at hw
    exact ⟨rfl, hw⟩
  all_goals cases h <;> exact ⟨rfl, hword _ ‹_›⟩

/-- Encoding inverts the whole dispatch, class by class. -/
theorem isWordOf_of_decode {w : Word} {i : Instr} (h : decode w = .ok i) : IsWordOf w i := by
  rcases fieldClass_cases w with
    hc | hc | hc | hc | hc | hc | hc | hc | hc | hc | hc | hc | hc | hc | hc | hc
  · rw [decode_class0 hc] at h
    split_ifs at h with hcls hret <;> cases h
    · exact ⟨rfl, hcls.symm⟩
    · exact ⟨rfl, hret.symm⟩
  · rw [decode_class1 hc] at h; cases h; exact ⟨rfl, formatNNN_of_class hc⟩
  · rw [decode_class2 hc] at h; cases h; exact ⟨rfl, formatNNN_of_class hc⟩
  · rw [decode_class3 hc] at h; cases h; exact ⟨rfl, formatXNN_of_class hc⟩
  · rw [decode_class4 hc] at h; cases h; exact ⟨rfl, formatXNN_of_class hc⟩
  · rw [decode_class5 hc] at h; exact isWordOf_of_decodeClass5 hc h
  · rw [decode_class6 hc] at h; cases h; exact ⟨rfl, formatXNN_of_class hc⟩
  · rw [decode_class7 hc] at h; cases h; exact ⟨rfl, formatXNN_of_class hc⟩
  · rw [decode_class8 hc] at h; exact isWordOf_of_decodeClass8 hc h
  · rw [decode_class9 hc] at h
    split_ifs at h with hn
    cases h
    exact ⟨rfl, formatXYN_of_nibble hc (congrArg _ hn)⟩
  · rw [decode_classA hc] at h; cases h; exact ⟨rfl, formatNNN_of_class hc⟩
  · rw [decode_classB hc] at h; cases h; exact ⟨rfl, formatNNN_of_class hc⟩
  · rw [decode_classC hc] at h; cases h
  · rw [decode_classD hc] at h
    split_ifs at h with hn <;> cases h
    · exact ⟨rfl, formatXYN_of_nibble hc (congrArg _ hn)⟩
    · exact ⟨by simpa [Instr.wf] using hn, formatXYN_of_nibble hc rfl⟩
  · rw [decode_classE hc] at h; exact isWordOf_of_decodeClassE hc h
  · rw [decode_classF hc] at h; exact isWordOf_of_decodeClassF hc h

/-! ### The flat opcode map by class (R77) -/

/-- The rows of one class, in their order. -/
def rowsOfClass (c : BitVec 4) : List OpcodeRow := opcodeRows.filter fun r => fieldClass r.pattern == c

/-- The word matches the row. -/
def rowMatches (w : Word) (r : OpcodeRow) : Bool := decide (w &&& r.mask = r.pattern)

/-- Every mask of the opcode map keeps the class. -/
theorem mask_keeps_class : ∀ r ∈ opcodeRows, fieldClass r.mask = 0xF := by decide

theorem fieldClass_and (a b : Word) : fieldClass (a &&& b) = fieldClass a &&& fieldClass b :=
  BitVec.extractLsb'_and

/-- A word matches only rows of its own class. -/
theorem class_of_rowMatches {w : Word} {r : OpcodeRow} (hr : r ∈ opcodeRows) (hm : rowMatches w r = true) :
    fieldClass r.pattern = fieldClass w := by
  have hm : w &&& r.mask = r.pattern := of_decide_eq_true hm
  rw [← hm, fieldClass_and, mask_keeps_class r hr]
  exact BitVec.and_allOnes

/-- So the first matching row is the first matching row of the word's class. -/
theorem firstRow_of_class {w : Word} {c : BitVec 4} (hc : fieldClass w = c) :
    firstRow w = (rowsOfClass c).find? (rowMatches w) := by
  rw [rowsOfClass, List.find?_filter]
  refine List.find?_congr fun r hr => ?_
  show rowMatches w r = _
  cases hm : rowMatches w r with
  | false => simp
  | true => simp [class_of_rowMatches hr hm, hc]

/-! ### Matching a row, field by field -/

theorem eq_ofNat_of_toNat {k m : Nat} {n : BitVec k} (h : n.toNat = m) : n = BitVec.ofNat k m := by
  rw [← h, BitVec.ofNat_toNat, BitVec.setWidth_eq]

/-- `X` as bits. -/
def xBits (w : Word) : BitVec 4 := BitVec.ofFin (fieldX w)

/-- Words are equal when their class, `X` and `NN` are. -/
theorem word_eq_iff {a b : Word} :
    a = b ↔ fieldClass a = fieldClass b ∧ fieldNN a = fieldNN b ∧ xBits a = xBits b := by
  refine ⟨fun h => h ▸ ⟨rfl, rfl, rfl⟩, fun ⟨hc, hn, hx⟩ => ?_⟩
  rw [← formatXNN_fields a, hc, hn, BitVec.ofFin.inj hx, formatXNN_fields]

theorem fieldNN_and (a b : Word) : fieldNN (a &&& b) = fieldNN a &&& fieldNN b := BitVec.extractLsb'_and

theorem xBits_and (a b : Word) : xBits (a &&& b) = xBits a &&& xBits b :=
  BitVec.extractLsb'_and

/-- A row whose mask has all of `NN`: `NN` decides, and the part of `X` that the mask has. -/
theorem rowMatches_byte {w : Word} {r : OpcodeRow} (hc : fieldClass w = fieldClass r.pattern)
    (hm : fieldClass r.mask = 0xF ∧ fieldNN r.mask = 0xFF) :
    rowMatches w r =
      (decide (fieldNN w = fieldNN r.pattern) && decide (xBits w &&& xBits r.mask = xBits r.pattern)) := by
  have hclass : fieldClass w &&& 0xF#4 = fieldClass r.pattern := hc ▸ BitVec.and_allOnes
  have hbyte : fieldNN w &&& 0xFF#8 = fieldNN w := BitVec.and_allOnes
  simp [rowMatches, word_eq_iff (b := r.pattern), fieldClass_and, fieldNN_and, xBits_and, hm, hclass, hbyte]

/-- A row that fixes the class and `N`: `N` decides. -/
theorem rowMatches_nibble {w : Word} {r : OpcodeRow} (hc : fieldClass w = fieldClass r.pattern)
    (hm : r.mask = 0xF00F#16 ∧ r.pattern &&& 0xF00F#16 = r.pattern) :
    rowMatches w r = decide (fieldN w = fieldN r.pattern) := by
  obtain ⟨hmask, hpattern⟩ := hm
  calc rowMatches w r = decide (w &&& 0xF00F#16 = r.pattern &&& 0xF00F#16) := by rw [rowMatches, hmask, hpattern]
    _ = decide (fieldN w = fieldN r.pattern) := by
      rw [mask_class_nibble, mask_class_nibble, hc]
      exact decide_eq_decide.2 (BitVec.append_right_inj _)

/-- A row that fixes the class only. -/
theorem rowMatches_class {w : Word} {c : BitVec 4} {m : String} {p : Word} (hc : fieldClass w = c)
    (hp : c ++ 0#12 = p) : rowMatches w ⟨m, p, 0xF000#16⟩ = true := by
  simp only [rowMatches, mask_class, hc, hp, decide_true]

/-- A row that fixes the whole word. -/
theorem rowMatches_word (w : Word) (m : String) (p : Word) : rowMatches w ⟨m, p, 0xFFFF⟩ = decide (w = p) :=
  congrArg (fun u => decide (u = p)) (mask_all w)

/-! ### The dispatch and the map, class by class -/

/-- The mnemonic a word decodes to. -/
def decodedMnemonic : Except DecodeError Instr → Option String
  | .ok i => some i.mnemonic
  | .error _ => none

/-- The row of a list that the nibble `n` selects. -/
def rowOfNibble (n : BitVec 4) (l : List OpcodeRow) : Option String :=
  (l.find? fun r => decide (n = fieldN r.pattern)).map OpcodeRow.mnemonic

/-- The row of a list that the byte `n` and the register number `x` select. -/
def rowOfByte (n : Byte) (x : Reg) (l : List OpcodeRow) : Option String :=
  (l.find? fun r => decide (n = fieldNN r.pattern) && decide (BitVec.ofFin x &&& xBits r.mask = xBits r.pattern)).map
    OpcodeRow.mnemonic

theorem pattern_class {c : BitVec 4} {r : OpcodeRow} (hr : r ∈ rowsOfClass c) : fieldClass r.pattern = c := by
  simpa using (List.mem_filter.1 hr).2

theorem firstRow_nibble {w : Word} {c : BitVec 4} (hc : fieldClass w = c)
    (hm : ∀ r ∈ rowsOfClass c, r.mask = 0xF00F#16 ∧ r.pattern &&& 0xF00F#16 = r.pattern) :
    (firstRow w).map OpcodeRow.mnemonic = rowOfNibble (fieldN w) (rowsOfClass c) := by
  rw [firstRow_of_class hc, rowOfNibble]
  exact congrArg _ (List.find?_congr fun r hr => rowMatches_nibble (hc.trans (pattern_class hr).symm) (hm r hr))

theorem firstRow_byte {w : Word} {c : BitVec 4} (hc : fieldClass w = c)
    (hm : ∀ r ∈ rowsOfClass c, fieldClass r.mask = 0xF ∧ fieldNN r.mask = 0xFF) :
    (firstRow w).map OpcodeRow.mnemonic = rowOfByte (fieldNN w) (fieldX w) (rowsOfClass c) := by
  rw [firstRow_of_class hc, rowOfByte]
  exact congrArg _ (List.find?_congr fun r hr => rowMatches_byte (hc.trans (pattern_class hr).symm) (hm r hr))

/-- A class of one row that fixes nothing else. -/
theorem firstRow_single {w : Word} {c : BitVec 4} {m : String} {p : Word} (hc : fieldClass w = c)
    (hrow : rowsOfClass c = [⟨m, p, 0xF000#16⟩]) (hp : c ++ 0#12 = p) :
    (firstRow w).map OpcodeRow.mnemonic = some m := by
  rw [firstRow_of_class hc, hrow, List.find?_cons_of_pos (rowMatches_class hc hp)]
  rfl

theorem decodedMnemonic_class5 (w : Word) :
    decodedMnemonic (decodeClass5 w) = rowOfNibble (fieldN w) (rowsOfClass 0x5) := by
  unfold decodeClass5
  generalize fieldN w = n
  split
  case h_4 => show none = _; revert n; decide
  all_goals obtain rfl := eq_ofNat_of_toNat ‹_›; rfl

theorem decodedMnemonic_class8 (w : Word) :
    decodedMnemonic (decodeClass8 w) = rowOfNibble (fieldN w) (rowsOfClass 0x8) := by
  unfold decodeClass8
  generalize fieldN w = n
  split
  case h_10 => show none = _; revert n; decide
  all_goals obtain rfl := eq_ofNat_of_toNat ‹_›; rfl

/-- No row has the byte. -/
theorem rowOfByte_eq_none {n : Byte} {l : List OpcodeRow} (x : Reg) (h : ∀ r ∈ l, n ≠ fieldNN r.pattern) :
    rowOfByte n x l = none := by
  rw [rowOfByte, Option.map_eq_none_iff, List.find?_eq_none]
  intro r hr
  simp [h r hr]

theorem decodedMnemonic_classE (w : Word) :
    decodedMnemonic (decodeClassE w) = rowOfByte (fieldNN w) (fieldX w) (rowsOfClass 0xE) := by
  unfold decodeClassE
  generalize fieldNN w = n, fieldX w = x
  split
  case h_3 => exact (rowOfByte_eq_none x (by revert n; decide)).symm
  all_goals obtain rfl := eq_ofNat_of_toNat ‹_›; revert x; decide

/-- `LDL`, `PLANE` and `AUD` are the rows with a condition on `X`. -/
theorem decodedMnemonic_classF (w : Word) :
    decodedMnemonic (decodeClassF w) = rowOfByte (fieldNN w) (fieldX w) (rowsOfClass 0xF) := by
  unfold decodeClassF
  generalize fieldNN w = n, fieldX w = x, fieldPlanes w = m
  split
  case h_14 =>
    have hbytes : ∀ r ∈ rowsOfClass 0xF, (fieldNN r.pattern).toNat ∈
        [0x00, 0x01, 0x02, 0x07, 0x0A, 0x15, 0x18, 0x1E, 0x29, 0x33, 0x3A, 0x55, 0x65] := by decide
    refine (rowOfByte_eq_none x fun r hr hn => ?_).symm
    have hr := hn ▸ hbytes r hr
    simp_all
  case h_1 | h_2 | h_3 =>
    obtain rfl := eq_ofNat_of_toNat ‹_›
    rw [apply_ite decodedMnemonic]
    simp only [decodedMnemonic, Instr.mnemonic]
    revert x
    decide
  all_goals obtain rfl := eq_ofNat_of_toNat ‹_›; revert x; decide

/-- The two transcriptions agree in every class. -/
theorem decodedMnemonic_decode (w : Word) : decodedMnemonic (decode w) = (firstRow w).map OpcodeRow.mnemonic := by
  rcases fieldClass_cases w with
    hc | hc | hc | hc | hc | hc | hc | hc | hc | hc | hc | hc | hc | hc | hc | hc
  · have hrows : rowsOfClass 0x0 = [⟨"CLS", 0x00E0, 0xFFFF⟩, ⟨"RET", 0x00EE, 0xFFFF⟩] := by decide
    rw [decode_class0 hc, firstRow_of_class hc, hrows, List.find?_cons, rowMatches_word, List.find?_cons,
      rowMatches_word]
    by_cases hcls : w = 0x00E0
    · rw [if_pos hcls, decide_eq_true hcls]; rfl
    · rw [if_neg hcls, decide_eq_false hcls]
      by_cases hret : w = 0x00EE
      · rw [if_pos hret, decide_eq_true hret]; rfl
      · rw [if_neg hret, decide_eq_false hret]; rfl
  · rw [decode_class1 hc, firstRow_single hc rfl rfl]; rfl
  · rw [decode_class2 hc, firstRow_single hc rfl rfl]; rfl
  · rw [decode_class3 hc, firstRow_single hc rfl rfl]; rfl
  · rw [decode_class4 hc, firstRow_single hc rfl rfl]; rfl
  · rw [decode_class5 hc, firstRow_nibble hc (by decide), decodedMnemonic_class5]
  · rw [decode_class6 hc, firstRow_single hc rfl rfl]; rfl
  · rw [decode_class7 hc, firstRow_single hc rfl rfl]; rfl
  · rw [decode_class8 hc, firstRow_nibble hc (by decide), decodedMnemonic_class8]
  · rw [decode_class9 hc, firstRow_nibble hc (by decide), apply_ite decodedMnemonic]
    generalize fieldN w = n
    simp only [decodedMnemonic, Instr.mnemonic]
    revert n
    decide
  · rw [decode_classA hc, firstRow_single hc rfl rfl]; rfl
  · rw [decode_classB hc, firstRow_single hc rfl rfl]; rfl
  · rw [decode_classC hc, firstRow_of_class hc]; rfl
  · have hdrwx : rowMatches w ⟨"DRWX", 0xD000, 0xF00F⟩ = decide (fieldN w = 0) := rowMatches_nibble hc (by decide)
    have hdrw : rowMatches w ⟨"DRW", 0xD000, 0xF000⟩ = true := rowMatches_class hc rfl
    have hrows : rowsOfClass 0xD = [⟨"DRWX", 0xD000, 0xF00F⟩, ⟨"DRW", 0xD000, 0xF000⟩] := by decide
    rw [decode_classD hc, firstRow_of_class hc, hrows, List.find?_cons, hdrwx, List.find?_cons, hdrw]
    by_cases hn : fieldN w = 0
    · rw [if_pos hn, decide_eq_true hn]; rfl
    · rw [if_neg hn, decide_eq_false hn]; rfl
  · rw [decode_classE hc, firstRow_byte hc (by decide), decodedMnemonic_classE]
  · rw [decode_classF hc, firstRow_byte hc (by decide), decodedMnemonic_classF]

/-! ### The statements -/

/-- Settles O1, constructor by constructor (the family `RoundTrip`). -/
theorem decodeOfEncode : Obligations.DecodeOfEncode := by
  intro i
  cases i with
  | cls => exact RoundTrip.cls
  | ret => exact RoundTrip.ret
  | jp nnn => exact RoundTrip.jp nnn
  | call nnn => exact RoundTrip.call nnn
  | sei x nn => exact RoundTrip.sei x nn
  | snei x nn => exact RoundTrip.snei x nn
  | ser x y => exact RoundTrip.ser x y
  | str x y => exact RoundTrip.str x y
  | ldr x y => exact RoundTrip.ldr x y
  | ldn x nn => exact RoundTrip.ldn x nn
  | addn x nn => exact RoundTrip.addn x nn
  | mov x y => exact RoundTrip.mov x y
  | or x y => exact RoundTrip.or x y
  | and x y => exact RoundTrip.and x y
  | xor x y => exact RoundTrip.xor x y
  | add x y => exact RoundTrip.add x y
  | sub x y => exact RoundTrip.sub x y
  | shr x y => exact RoundTrip.shr x y
  | subn x y => exact RoundTrip.subn x y
  | shl x y => exact RoundTrip.shl x y
  | sner x y => exact RoundTrip.sner x y
  | ldi nnn => exact RoundTrip.ldi nnn
  | jp0 nnn => exact RoundTrip.jp0 nnn
  | drwx x y => exact RoundTrip.drwx x y
  | drw x y n => exact RoundTrip.drw x y n
  | skp x => exact RoundTrip.skp x
  | sknp x => exact RoundTrip.sknp x
  | ldl => exact RoundTrip.ldl
  | plane m => exact RoundTrip.plane m
  | aud => exact RoundTrip.aud
  | ldvdt x => exact RoundTrip.ldvdt x
  | ldk x => exact RoundTrip.ldk x
  | lddt x => exact RoundTrip.lddt x
  | ldst x => exact RoundTrip.ldst x
  | addi x => exact RoundTrip.addi x
  | ldf x => exact RoundTrip.ldf x
  | bcd x => exact RoundTrip.bcd x
  | ldpitch x => exact RoundTrip.ldpitch x
  | stm x => exact RoundTrip.stm x
  | ldm x => exact RoundTrip.ldm x

/-- Settles O2: in every class the decoded fields make the word again. -/
theorem encodeOfDecode : Obligations.EncodeOfDecode := fun _ _ => isWordOf_of_decode

/-- Settles O3: in every class both transcriptions are the same function of the fields. -/
theorem decodeSelectsFirstMatchingRow : Obligations.DecodeSelectsFirstMatchingRow := fun w =>
  Eq.trans (by cases decode w <;> rfl) (decodedMnemonic_decode w)

/-- Settles O4: closed words. -/
theorem specWordsDecode : Obligations.SpecWordsDecode := by
  unfold Obligations.SpecWordsDecode
  decide

end Sys2Proof.Proofs.Decoder

/-! ## Proofs: what an instruction can write, said once for all instructions (R20, R226) -/

namespace Sys2Proof.Proofs.Writes

open Sys2Proof.Machine Sys2Proof.Laws

/-! ### Frames compose -/

theorem same_trans {s t u : State} {p : Part} (h : p.same s t) (h' : p.same t u) : p.same s u := by
  cases p <;> exact Eq.trans h' h

theorem frame_trans {s t u : State} {ps qs : List Part} (h : s.unchangedBut ps t) (h' : t.unchangedBut qs u) :
    s.unchangedBut (ps ++ qs) u := fun p hp => by
  obtain ⟨hps, hqs⟩ := List.mem_append.not.trans not_or |>.1 hp
  exact same_trans (h p hps) (h' p hqs)

/-! ### The frame of each operation that has none yet -/

theorem frame_popDepth (s : State) : s.unchangedBut [.depth] s.popDepth := fun p hp => by
  cases p with
  | depth => simp at hp
  | _ => rfl

theorem frame_writeByte (s : State) (a : Word) (b : Byte) :
    s.unchangedBut [.byte (s.storedOffset a)] (s.writeByte a b) := fun p hp => by
  cases p with
  | byte o => exact memRead_memWrite_ne _ (by simpa using hp) b
  | _ => rfl

theorem frame_dt (s : State) (b : Byte) : s.unchangedBut [.dt] { s with dt := b } := fun p hp => by
  cases p with
  | dt => simp at hp
  | _ => rfl

theorem frame_st (s : State) (b : Byte) : s.unchangedBut [.st] { s with st := b } := fun p hp => by
  cases p with
  | st => simp at hp
  | _ => rfl

theorem frame_pitch (s : State) (b : Byte) : s.unchangedBut [.pitch] { s with pitch := b } := fun p hp => by
  cases p with
  | pitch => simp at hp
  | _ => rfl

theorem frame_planes (s : State) (m : BitVec 2) : s.unchangedBut [.planes] { s with planes := m } := fun p hp => by
  cases p with
  | planes => simp at hp
  | _ => rfl

theorem frame_audio (s : State) (a : Vector Byte 16) :
    s.unchangedBut ((List.finRange 16).map Part.audio) { s with audio := a } := fun p hp => by
  cases p with
  | audio k => simp at hp
  | _ => rfl

theorem frame_display (s : State) (p1 p2 : Plane) (dirty : Bool) :
    s.unchangedBut [.plane1, .plane2, .dirty] { s with p1, p2, dirty } := fun p hp => by
  cases p with
  | plane1 | plane2 | dirty => simp at hp
  | _ => rfl

theorem frame_composited (x y : Reg) (wb rows : Nat) (s : State) :
    s.unchangedBut [.plane1, .plane2, .dirty, .reg 15] (composited x y wb rows s) :=
  frame_trans (frame_display s _ _ _) (frame_writeFlag _ _)

/-! ### Register blocks -/

theorem bytesAt_succ (s : State) (n : Nat) :
    s.bytesAt (n + 1) = s.bytesAt n ++ [.byte (s.storedOffset (s.addrAt n))] := by
  simp [State.bytesAt, List.range_succ]

theorem frame_storeRegs (s : State) (lo n : Nat) : s.unchangedBut (s.bytesAt n) (s.storeRegs lo n) := by
  induction n with
  | zero => exact frame_refl s _
  | succ n ih =>
    have hoffset : (s.storeRegs lo n).storedOffset ((s.storeRegs lo n).addrAt n) = s.storedOffset (s.addrAt n) := by
      rw [storeRegs_eq]; rfl
    rw [storeRegs_succ, bytesAt_succ, ← hoffset]
    exact frame_trans ih (frame_writeByte _ _ _)

/-- The registers `lo` to `lo + n - 1`, as parts. -/
def regsFrom (lo n : Nat) : List Part := (List.range n).map fun k => .reg (regOf (lo + k))

theorem rangeLow_add_count (x y : Reg) : rangeLow x y + rangeCount x y = max x.val y.val + 1 := by
  unfold rangeCount rangeLow
  omega

theorem regsFrom_succ (lo n : Nat) : regsFrom lo (n + 1) = regsFrom lo n ++ [.reg (regOf (lo + n))] := by
  simp [regsFrom, List.range_succ]

theorem frame_loadRegs (s : State) (lo n : Nat) : s.unchangedBut (regsFrom lo n) (s.loadRegs lo n) := by
  induction n with
  | zero => exact frame_refl s _
  | succ n ih =>
    rw [loadRegs_succ, regsFrom_succ]
    exact frame_trans ih (frame_writeV _ _ _)

@[simp] theorem mem_bytesAt_iff {s : State} {n : Nat} {p : Part} :
    p ∈ s.bytesAt n ↔ ∃ k < n, .byte (s.storedOffset (s.addrAt k)) = p := by
  simp [State.bytesAt]

@[simp] theorem mem_regsFrom_iff {lo n : Nat} {p : Part} : p ∈ regsFrom lo n ↔ ∃ k < n, .reg (regOf (lo + k)) = p := by
  simp [regsFrom]

theorem reg_mem_regsFrom {r : Reg} {lo n : Nat} (hn : lo + n ≤ 16) :
    .reg r ∈ regsFrom lo n ↔ lo ≤ r.val ∧ r.val < lo + n := by
  rw [mem_regsFrom_iff]
  constructor
  · rintro ⟨k, hk, hr⟩
    have hval : (lo + k) % 16 = r.val := congrArg Fin.val (Part.reg.inj hr)
    omega
  · rintro ⟨hlo, hhi⟩
    exact ⟨r.val - lo, by omega, congrArg Part.reg (regOf_val (by omega))⟩

/-! ### The parts an instruction can write -/

/-- The parts an instruction can write (R20); every other part it leaves. -/
def written (i : Instr) (s : State) : List Part :=
  match i with
  | .cls => [.plane1, .plane2, .dirty]
  | .ret => [.depth, .pc]
  | .call _ => [.depth, .stackSlot (Fin.ofNat 16 s.sp.val), .pc]
  | .jp _ | .jp0 _ | .sei _ _ | .snei _ _ | .ser _ _ | .sner _ _ | .skp _ | .sknp _ => [.pc]
  | .str x y => s.bytesAt (rangeCount x y) ++ [.index]
  | .ldr x y => regsFrom (rangeLow x y) (rangeCount x y) ++ [.index]
  | .ldn x _ | .addn x _ | .mov x _ | .ldvdt x => [.reg x]
  | .or x _ | .and x _ | .xor x _ | .add x _ | .sub x _ | .shr x _ | .subn x _ | .shl x _ => [.reg x, .reg 15]
  | .ldi _ | .addi _ | .ldf _ => [.index]
  | .drwx _ _ | .drw _ _ _ => [.plane1, .plane2, .dirty, .reg 15]
  | .ldl => [.pc, .index]
  | .plane _ => [.planes]
  | .aud => (List.finRange 16).map Part.audio
  | .ldk x => [.pc, .reg x]
  | .lddt _ => [.dt]
  | .ldst _ => [.st]
  | .bcd _ => s.bytesAt 3
  | .ldpitch _ => [.pitch]
  | .stm x => s.bytesAt (x.val + 1) ++ [.index]
  | .ldm x => regsFrom 0 (x.val + 1) ++ [.index]

/-- What a `CALL` on the full stack would do: it fails before. -/
theorem effect_call_full {nnn : BitVec 12} {s : State} (h : ¬ s.sp.val < 16) : effect (.call nnn) s = s := dif_neg h

/-- With no release edge latched `LDK` undoes the advance (R192). -/
theorem effect_ldk_wait {s : State} (x : Reg) (h : s.released = 0) : effect (.ldk x) s = s.setPc (s.pc - 2) := if_pos h

/-- With one latched it stores the number of the lowest (R192). -/
theorem effect_ldk_key {s : State} (x : Reg) (h : s.released ≠ 0) :
    effect (.ldk x) s = s.writeV x (BitVec.ofNat 8 (lsbIndex s.released)) := if_neg h

theorem frame_effect (i : Instr) (s : State) : s.unchangedBut (written i s) (effect i s) := by
  cases i with
  | cls => exact frame_display s _ _ _
  | ret => exact frame_trans (frame_popDepth s) (frame_setPc _ _)
  | call nnn =>
    by_cases h : s.sp.val < 16
    · rw [effect_call h]
      exact frame_trans (frame_push (Nat.mod_eq_of_lt h).symm _ h) (frame_setPc _ _)
    · rw [effect_call_full h]
      exact frame_refl s _
  | jp | jp0 => exact frame_setPc s _
  | sei | snei | ser | sner | skp | sknp => exact frame_skipIf s _
  | str | stm => exact frame_trans (frame_storeRegs s _ _) (frame_setI _ _)
  | ldr | ldm => exact frame_trans (frame_loadRegs s _ _) (frame_setI _ _)
  | ldn | addn | mov | ldvdt => exact frame_writeV s _ _
  | or | and | xor | add | sub | shr | subn | shl => exact frame_writeResult s _ _ _
  | ldi | addi | ldf => exact frame_setI s _
  | drwx | drw => exact frame_composited _ _ _ _ s
  | ldl => exact frame_trans (frame_setPc s _) (frame_setI _ _)
  | plane m => exact frame_planes s m
  | aud => exact frame_audio s _
  | ldk x =>
    by_cases h : s.released = 0
    · rw [effect_ldk_wait x h]
      exact frame_mono (frame_setPc s _) (by simp [written])
    · rw [effect_ldk_key x h]
      exact frame_mono (frame_writeV s x _) (by simp [written])
  | lddt => exact frame_dt s _
  | ldst => exact frame_st s _
  | ldpitch => exact frame_pitch s _
  | bcd x =>
    exact frame_trans (frame_trans (frame_writeByte s _ _) (frame_writeByte _ _ _)) (frame_writeByte _ _ _)

/-- Whatever an instruction answers, it leaves the parts it cannot write. -/
theorem exec_frame {i : Instr} {s t : State} (h : exec i s = .next t) : s.unchangedBut (written i s) t :=
  exec_next_of_effect h (fun _ r hu => frame_setResult hu r) (frame_refl s _) fun _ => frame_effect i s

end Sys2Proof.Proofs.Writes

/-! ## Proofs: the invariant (`10_state.md` R22 to R25, `20_memory.md` R50, `50_host_interface.md` R205) -/

namespace Sys2Proof.Proofs.Invariant

open Sys2Proof.Machine Sys2Proof.Laws Sys2Proof.Proofs.Writes

/-! ### The program counter -/

theorem toNat_add_two {p : Word} {n : Nat} (h : p.toNat ≤ n) (hn : n ≤ 65532) : (p + 2).toNat = p.toNat + 2 := by
  rw [BitVec.toNat_add, show (2 : Word).toNat = 2 from rfl]
  omega

theorem toNat_sub_two_le {p : Word} (h : 2 ≤ p.toNat) : (p - 2).toNat ≤ p.toNat := by
  rw [BitVec.toNat_sub_of_le (BitVec.le_def.2 (show (2 : Word).toNat ≤ p.toNat from h))]
  omega

/-- A target that translates is an offset inside memory (R103). -/
theorem targetOffset_lt {c : Config} {n : Nat} (hf : targetFailure c n = none) :
    (targetOffset c n).toNat < c.memSize := by
  unfold targetFailure at hf
  split_ifs at hf with hlow hhigh
  calc (targetOffset c n).toNat ≤ n - c.reserved := by
        rw [targetOffset, BitVec.toNat_ofNat]; exact Nat.mod_le _ _
    _ < c.memSize := by omega

/-! ### The invariant through the pieces of a step -/

theorem inv_setResult {s : State} (h : s.Inv) (r : Result) : (s.setResult r).Inv :=
  ⟨h.config, h.memory, h.inMemory, h.pc, h.stack⟩

theorem inv_clearReleased {s : State} (h : s.Inv) : s.clearReleased.Inv :=
  ⟨h.config, h.memory, h.inMemory, h.pc, h.stack⟩

/-- Between the advance and the next fetch `pc` is an advanced offset (R71): at least 2, and at most `MEM_SIZE`. -/
structure Advanced (s : State) : Prop extends s.Inv where
  two_le : 2 ≤ s.pc.toNat
  le_memSize : s.pc.toNat ≤ s.config.memSize

theorem advanced_advance {s : State} (h : s.Inv) (hf : s.pc.toNat + 1 < s.config.memSize) : Advanced s.advance := by
  obtain ⟨-, -, -, -, hmax, -⟩ := h.config
  have hpc : s.advance.pc.toNat = s.pc.toNat + 2 := toNat_add_two (n := s.config.memSize) (by omega) hmax
  have hle : s.pc.toNat + 2 ≤ s.config.memSize := by omega
  exact {
    config := h.config
    memory := h.memory
    inMemory := h.inMemory
    pc := by rw [hpc, advance_config]; omega
    stack := h.stack
    two_le := by omega
    le_memSize := by rw [hpc, advance_config]; exact hle }

theorem pc_le_of_not_written {i : Instr} {s : State} {n : Nat} (hw : .pc ∉ written i s) (h : s.pc.toNat ≤ n) :
    (effect i s).pc.toNat ≤ n := (congrArg BitVec.toNat (frame_effect i s .pc hw)).trans_le h

theorem stack_le_of_not_written {i : Instr} {s : State} {k : Fin 16} {n : Nat} (hw : .stackSlot k ∉ written i s)
    (h : s.stack[k].toNat ≤ n) : (effect i s).stack[k].toNat ≤ n :=
  (congrArg BitVec.toNat (frame_effect i s (.stackSlot k) hw)).trans_le h

/-- `pc` after an instruction that completes (R22, R23): at most one instruction width past the advanced value. -/
theorem effect_pc_le {i : Instr} {s : State} (h : Advanced s) (hf : failure i s = none) :
    (effect i s).pc.toNat ≤ s.config.memSize + 2 := by
  have hpc := h.pc
  have hle := h.le_memSize
  obtain ⟨-, -, -, -, hmax, -⟩ := h.config
  have hadd : (s.pc + 2).toNat = s.pc.toNat + 2 := toNat_add_two hle hmax
  have hskip : ∀ c, (s.skipIf c).pc.toNat ≤ s.config.memSize + 2 := fun c => by
    rw [skipIf_pc]
    split_ifs <;> omega
  cases i with
  | jp nnn | jp0 nnn => exact Nat.le_add_right_of_le (targetOffset_lt hf).le
  | call nnn =>
    have hsp : s.sp.val < 16 := by
      by_contra hsp
      simp [Laws.failure, hsp] at hf
    rw [failure_call hsp] at hf
    rw [effect_call hsp]
    exact Nat.le_add_right_of_le (targetOffset_lt hf).le
  | ret => exact Nat.le_add_right_of_le (h.stack ⟨s.sp.val - 1, by omega⟩)
  | sei | snei | ser | sner | skp | sknp => exact hskip _
  | ldl => show (s.pc + 2).toNat ≤ _; omega
  | ldk x =>
    by_cases hr : s.released = 0
    · rw [effect_ldk_wait x hr, setPc_pc]
      exact (toNat_sub_two_le h.two_le).trans hpc
    · rw [effect_ldk_key x hr, writeV_pc]
      exact hpc
  | _ => exact pc_le_of_not_written (by simp [written]) hpc

/-- Only `CALL` writes a stack slot, and it writes an advanced `pc` (R25). -/
theorem effect_stack_le {s : State} (i : Instr) (h : Advanced s) (k : Fin 16) :
    (effect i s).stack[k].toNat ≤ s.config.memSize := by
  have hk := h.stack k
  cases i with
  | call nnn =>
    by_cases hsp : s.sp.val < 16
    · rw [effect_call hsp, setPc_stack, push_stack, Fin.getElem_fin, Vector.getElem_set]
      split_ifs
      · exact h.le_memSize
      · exact hk
    · rw [effect_call_full hsp]
      exact hk
  | _ => exact stack_le_of_not_written (by simp [written]) hk

/-- Every instruction that completes keeps the invariant. -/
theorem inv_effect {i : Instr} {s : State} (h : Advanced s) (hf : failure i s = none) : (effect i s).Inv where
  config := by rw [effect_config]; exact h.config
  memory := effect_mem_induction hf h.memory fun _ o b hm _ => memWrite_wf hm o b
  inMemory := by
    rw [effect_config]
    refine effect_mem_induction (motive := fun m => ∀ c ∈ m, c.1 < s.config.memSize) hf h.inMemory ?_
    intro m o b hm ho c hc
    obtain ⟨rfl, -⟩ | hc := mem_memWrite hc
    · exact ho
    · exact hm c hc
  pc := by rw [effect_config]; exact effect_pc_le h hf
  stack := by rw [effect_config]; exact effect_stack_le i h

theorem inv_step {s t : State} (h : s.Inv) (hstep : step s = .next t) : t.Inv := by
  obtain ⟨-, rfl⟩ | ⟨w, e, hf, -, rfl⟩ | ⟨w, i, u, hf, -, hx, rfl⟩ := step_cases hstep
  · exact inv_clearReleased (inv_setResult h _)
  · exact inv_clearReleased (inv_setResult (advanced_advance h (fetchWord_isSome hf)).toInv _)
  · have ha := advanced_advance h (fetchWord_isSome hf)
    exact inv_clearReleased (exec_next_of_effect hx (fun _ r hu => inv_setResult hu r) ha.toInv (inv_effect ha))

/-! ### The invariant through the other commands -/

theorem inv_resetWith {c : Config} (hc : c.wf) : (State.resetWith c).Inv where
  config := hc
  memory := ⟨List.Pairwise.nil, by simp [State.resetWith]⟩
  inMemory := by simp [State.resetWith]
  pc := Nat.zero_le _
  stack k := by
    rw [show (State.resetWith c).stack[k] = 0 from Vector.getElem_replicate k.isLt]
    exact Nat.zero_le _

/-- Bytes written inside memory (R202, R203). -/
theorem inv_memWriteBytes {s : State} (h : s.Inv) {bytes : List Byte} {o : Nat}
    (ho : o + bytes.length ≤ s.config.memSize) (r : Result) :
    State.Inv { s with mem := memWriteBytes s.mem o bytes, result := r } where
  config := h.config
  memory := memWriteBytes_wf h.memory bytes o
  inMemory c hc := by
    obtain hc | hc := mem_memWriteBytes hc
    · exact Nat.lt_of_lt_of_le hc ho
    · exact h.inMemory c hc
  pc := h.pc
  stack := h.stack

theorem inv_loadRom {s : State} (h : s.Inv) (bytes : List Byte) : (s.loadRom bytes).Inv := by
  unfold State.loadRom
  split_ifs with hsize
  · exact inv_setResult h _
  · exact inv_memWriteBytes (inv_resetWith h.config) (by simpa [State.resetWith] using hsize) _

theorem inv_writeRom {s : State} (h : s.Inv) (bytes : List Byte) (o : Nat) : (s.writeRom bytes o).Inv := by
  unfold State.writeRom
  split_ifs with hsize
  · exact inv_setResult h _
  · exact inv_memWriteBytes h (by omega) _

theorem inv_keyDown {s : State} (h : s.Inv) (k : Nat) : (s.keyDown k).Inv := by
  unfold State.keyDown
  split_ifs
  · exact ⟨h.config, h.memory, h.inMemory, h.pc, h.stack⟩
  · exact h

theorem inv_keyUp {s : State} (h : s.Inv) (k : Nat) : (s.keyUp k).Inv := by
  unfold State.keyUp
  split_ifs
  · exact ⟨h.config, h.memory, h.inMemory, h.pc, h.stack⟩
  · exact h

/-- Every command keeps the invariant (R200). -/
theorem inv_command {c : Command} {s t : State} (h : s.Inv) (hc : command c s = .next t) : t.Inv := by
  cases c with
  | step => exact inv_step h hc
  | reset => cases hc; exact inv_resetWith h.config
  | loadRom bytes => cases hc; exact inv_loadRom h bytes
  | writeRom bytes o => cases hc; exact inv_writeRom h bytes o
  | tick | frameAck => cases hc; exact ⟨h.config, h.memory, h.inMemory, h.pc, h.stack⟩
  | keyDown k => cases hc; exact inv_keyDown h k
  | keyUp k => cases hc; exact inv_keyUp h k

/-! ### The statements -/

/-- Settles O10: the default configuration is legal and everything else is zero. -/
theorem resetMeetsInvariant : Obligations.ResetMeetsInvariant := inv_resetWith (by decide)

/-- Settles O11: the advance leaves `pc` at most `MEM_SIZE`, and every instruction keeps the invariant from there. -/
theorem stepKeepsInvariant : Obligations.StepKeepsInvariant := fun _ _ => inv_step

/-- Settles O12, by induction over the sequence. -/
theorem commandSequencesKeepInvariant : Obligations.CommandSequencesKeepInvariant :=
  runCommands_induction fun _ _ _ => inv_command

end Sys2Proof.Proofs.Invariant

/-! ## Proofs: how a step ends (`30_encoding.md` R74, `50_host_interface.md` R204, `60_exceptions.md` R226) -/

namespace Sys2Proof.Proofs.StepEnds

open Sys2Proof.Machine Sys2Proof.Laws Sys2Proof.Proofs.Encoding Sys2Proof.Proofs.Writes

theorem le_of_fetchWord_none {s : State} (h : s.fetchWord = none) : s.pc.toNat + 1 ≥ s.config.memSize := by
  by_contra hlt
  rw [fetchWord_some (by omega)] at h
  cases h

theorem frame_advance (s : State) : s.unchangedBut [.pc] s.advance := frame_setPc s _

/-- A state whose step fails, up to the end of the step: the error is recorded and the latch cleared. -/
theorem frame_failed {s u : State} {ps : List Part} (h : s.unchangedBut ps u) (e : Error) :
    s.unchangedBut (ps ++ [.released]) (u.setResult (.error e)).clearReleased :=
  frame_trans (frame_setResult h _) (frame_clearReleased _)

/-- The result codes of an instruction (R223). -/
theorem exec_result_mem {i : Instr} {s t : State} (h : exec i s = .next t) :
    t.result ∈ [Result.ok, .error .invalidInstruction, .error .addressOverflow, .error .addressUnderflow,
      .error .stackOverflow, .error .stackUnderflow] := by
  obtain ⟨e, hf, rfl⟩ | ⟨-, rfl⟩ := exec_next h
  · exact List.mem_cons_of_mem _ (List.mem_map_of_mem (f := Result.error) (failure_mem hf))
  · exact List.mem_cons_self

/-- Settles O6: the step's equation for a word that decodes. -/
theorem stepRunsDecodedInstruction : Obligations.StepRunsDecodedInstruction := fun _ _ _ => step_of_decode_ok

/-- Settles O8: a step ends in a failed fetch, an invalid word or an instruction, and each has its codes. -/
theorem stepAlwaysAnswersNext : Obligations.StepAlwaysAnswersNext := by
  intro s
  obtain ⟨t, ht⟩ := step_answers s
  refine ⟨t, ht, ?_⟩
  obtain ⟨-, rfl⟩ | ⟨w, e, -, -, rfl⟩ | ⟨w, i, u, -, -, hx, rfl⟩ := step_cases ht
  · simp
  · simp
  · rw [clearReleased_result]
    exact exec_result_mem hx

/-- Settles O9: each of the three ways to fail records an error on the state before the fetch or on the advanced one. -/
theorem failedStepIsPrecise : Obligations.FailedStepIsPrecise := by
  intro s t e hstep hresult
  have hadvanced : ∀ e', s.unchangedBut [.pc, .released] (s.advance.setResult (.error e')).clearReleased :=
    fun e' => frame_failed (frame_advance s) e'
  obtain ⟨hf, rfl⟩ | ⟨w, d, hf, -, rfl⟩ | ⟨w, i, u, hf, -, hx, rfl⟩ := step_cases hstep
  · have he : e = .addressOverflow := (Result.error.inj hresult).symm
    exact ⟨frame_mono (frame_failed (frame_refl s []) _) (by simp), rfl, .inr ⟨le_of_fetchWord_none hf, rfl, he⟩⟩
  · exact ⟨hadvanced _, rfl, .inl ⟨fetchWord_isSome hf, rfl⟩⟩
  · obtain ⟨e', -, rfl⟩ | ⟨-, rfl⟩ := exec_next hx
    · exact ⟨hadvanced _, rfl, .inl ⟨fetchWord_isSome hf, rfl⟩⟩
    · cases hresult

end Sys2Proof.Proofs.StepEnds

/-! ## Proofs: the stored memory (`20_memory.md` R50, R62) -/

namespace Sys2Proof.Proofs.StoredMemory

open Sys2Proof.Machine Sys2Proof.Laws

/-- Settles O14: the law of a read after a write, and that a write keeps the canonical form. -/
theorem memoryReadAfterWrite : Obligations.MemoryReadAfterWrite := fun m o b =>
  ⟨fun o' => memRead_memWrite m o o' b, fun hm => memWrite_wf hm o b⟩

/-- Settles O15: the list of a canonical memory is determined cell by cell. -/
theorem canonicalMemoryIsDeterminedByItsBytes : Obligations.CanonicalMemoryIsDeterminedByItsBytes :=
  fun _ _ hm hn h => memory_ext hm hn h

end Sys2Proof.Proofs.StoredMemory

/-! ## Proofs: the rules over all instructions (`10_state.md` R20 to R35) -/

namespace Sys2Proof.Proofs.WholeMachine

open Sys2Proof.Machine Sys2Proof.Laws Sys2Proof.Proofs.Encoding Sys2Proof.Proofs.Writes

/-! ### Which instructions write which part -/

section NotWritten

variable {i : Instr} {s : State}

theorem byte_not_written (h : i.mnemonic ∉ ["BCD", "STM", "STR"]) (o : Nat) : .byte o ∉ written i s := by
  cases i with
  | bcd | stm | str => simp [Instr.mnemonic] at h
  | _ => simp [written]

theorem stack_not_written (h : i.mnemonic ∉ ["CALL", "RET"]) :
    .depth ∉ written i s ∧ ∀ k, .stackSlot k ∉ written i s := by
  cases i with
  | call | ret => simp [Instr.mnemonic] at h
  | _ => simp [written]

theorem display_not_written (h : i.mnemonic ∉ ["CLS", "DRW", "DRWX"]) :
    .dirty ∉ written i s ∧ .plane1 ∉ written i s ∧ .plane2 ∉ written i s := by
  cases i with
  | cls | drw | drwx => simp [Instr.mnemonic] at h
  | _ => simp [written]

theorem planes_not_written (h : i.mnemonic ≠ "PLANE") : .planes ∉ written i s := by
  cases i with
  | plane => simp [Instr.mnemonic] at h
  | _ => simp [written]

theorem dt_not_written (h : i.mnemonic ≠ "LDDT") : .dt ∉ written i s := by
  cases i with
  | lddt => simp [Instr.mnemonic] at h
  | _ => simp [written]

theorem st_not_written (h : i.mnemonic ≠ "LDST") : .st ∉ written i s := by
  cases i with
  | ldst => simp [Instr.mnemonic] at h
  | _ => simp [written]

theorem pitch_not_written (h : i.mnemonic ≠ "LDPITCH") : .pitch ∉ written i s := by
  cases i with
  | ldpitch => simp [Instr.mnemonic] at h
  | _ => simp [written]

theorem audio_not_written (h : i.mnemonic ≠ "AUD") (k : Fin 16) : .audio k ∉ written i s := by
  cases i with
  | aud => simp [Instr.mnemonic] at h
  | _ => simp [written]

theorem keys_config_not_written (i : Instr) (s : State) :
    .pressed ∉ written i s ∧ .released ∉ written i s ∧ .config ∉ written i s := by
  cases i <;> simp [written]

theorem index_not_written (h : i.mnemonic ∉ ["LDI", "LDL", "ADDI", "LDF", "STM", "LDM", "STR", "LDR"]) :
    .index ∉ written i s := by
  cases i with
  | ldi | ldl | addi | ldf | stm | ldm | str | ldr => simp [Instr.mnemonic] at h
  | _ => simp [written]

theorem pc_not_written (h : i.mnemonic ∉
    ["LDL", "SEI", "SNEI", "SER", "SNER", "SKP", "SKNP", "JP", "CALL", "JP0", "RET", "LDK"]) : .pc ∉ written i s := by
  cases i with
  | ldl | sei | snei | ser | sner | skp | sknp | jp | call | jp0 | ret | ldk => simp [Instr.mnemonic] at h
  | _ => simp [written]

/-- `VF` is written only as a destination outside R35's table. -/
theorem flag_not_written (hImm : ∀ x nn, i = .ldn x nn ∨ i = .addn x nn → x ≠ 15) (hMov : ∀ x y, i = .mov x y → x ≠ 15)
    (hX : ∀ x, i = .ldvdt x ∨ i = .ldk x ∨ i = .ldm x → x ≠ 15) (hRange : ∀ x y, i = .ldr x y → x ≠ 15 ∧ y ≠ 15)
    (h : i.mnemonic ∉ ["OR", "AND", "XOR", "ADD", "SUB", "SUBN", "SHR", "SHL", "DRW", "DRWX"]) :
    .reg 15 ∉ written i s := by
  cases i with
  | or | and | xor | add | sub | subn | shr | shl | drw | drwx => simp [Instr.mnemonic] at h
  | ldn x nn => simpa [written] using (hImm x nn (.inl rfl)).symm
  | addn x nn => simpa [written] using (hImm x nn (.inr rfl)).symm
  | mov x y => simpa [written] using (hMov x y rfl).symm
  | ldvdt x => simpa [written] using (hX x (.inl rfl)).symm
  | ldk x => simpa [written] using (hX x (.inr (.inl rfl))).symm
  | ldm x =>
    rw [written, List.mem_append, reg_mem_regsFrom (by omega)]
    rintro (⟨-, hlt⟩ | hindex)
    · have hlt : 15 < 0 + (x.val + 1) := hlt
      exact hX x (.inr (.inr rfl)) (Fin.ext (show x.val = 15 by omega))
    · simp at hindex
  | ldr x y =>
    obtain ⟨hx, hy⟩ := hRange x y rfl
    rw [written, List.mem_append, reg_mem_regsFrom (rangeLow_add_count_le x y), rangeLow_add_count]
    rintro (⟨-, hlt⟩ | hindex)
    · have hlt : 15 < max x.val y.val + 1 := hlt
      have hx : x.val ≠ 15 := fun e => hx (Fin.ext e)
      have hy : y.val ≠ 15 := fun e => hy (Fin.ext e)
      omega
    · simp at hindex
  | _ => simp [written]

end NotWritten

/-! ### The values of the flags -/

theorem effect_keeps_dirty (i : Instr) {s : State} (h : s.dirty = true) : (effect i s).dirty = true := by
  cases i with
  | cls => rfl
  | drw | drwx => simp [effect, h]
  | _ => exact (frame_effect _ s .dirty (by simp [written])).trans h

/-- A flag producer that completes leaves 0 or 1 (R35). -/
theorem effect_flag {i : Instr} (s : State)
    (h : i.mnemonic ∈ ["OR", "AND", "XOR", "ADD", "SUB", "SUBN", "SHR", "SHL", "DRW", "DRWX"]) :
    ∃ f : Bool, (effect i s).readV 15 = if f then 1 else 0 := by
  cases i with
  | or | and | xor | add | sub | subn | shr | shl => exact ⟨_, writeResult_flag s _ _ _⟩
  | drw | drwx => exact ⟨_, writeFlag_flag _ _⟩
  | _ => simp [Instr.mnemonic] at h

/-! ### The outputs (R20) -/

/-- The registers a program cannot read, and the result code. -/
structure Outputs where
  st : Byte
  pitch : Byte
  audio : Vector Byte 16
  dirty : Bool
  result : Result

/-- The outputs a state shows. -/
def outputsOf (s : State) : Outputs := ⟨s.st, s.pitch, s.audio, s.dirty, s.result⟩

/-- The state with other outputs. -/
def withOutputs (s : State) (o : Outputs) : State :=
  { s with st := o.st, pitch := o.pitch, audio := o.audio, dirty := o.dirty, result := o.result }

/-- The parts that are outputs. -/
def outputParts : List Part := [.st, .pitch, .dirty] ++ (List.finRange 16).map Part.audio

theorem frame_withOutputs (s : State) (o : Outputs) : s.unchangedBut outputParts (withOutputs s o) := fun p hp => by
  cases p with
  | st | pitch | dirty | audio => simp [outputParts] at hp
  | _ => rfl

theorem failure_withOutputs (i : Instr) (s : State) (o : Outputs) :
    Laws.failure i (withOutputs s o) = Laws.failure i s := by
  cases i <;> rfl

theorem storeRegs_withOutputs (s : State) (o : Outputs) (lo n : Nat) :
    (withOutputs s o).storeRegs lo n = withOutputs (s.storeRegs lo n) o := by
  induction n with
  | zero => rfl
  | succ n ih => rw [storeRegs_succ, storeRegs_succ, ih]; rfl

theorem loadRegs_withOutputs (s : State) (o : Outputs) (lo n : Nat) :
    (withOutputs s o).loadRegs lo n = withOutputs (s.loadRegs lo n) o := by
  induction n with
  | zero => rfl
  | succ n ih => rw [loadRegs_succ, loadRegs_succ, ih]; rfl

theorem skipIf_withOutputs (s : State) (o : Outputs) (c : Bool) :
    (withOutputs s o).skipIf c = withOutputs (s.skipIf c) o := by
  cases c <;> rfl

/-- An effect reads no output: with other outputs it differs in outputs only. -/
theorem effect_withOutputs (i : Instr) (s : State) (o : Outputs) :
    ∃ o', effect i (withOutputs s o) = withOutputs (effect i s) o' := by
  cases i with
  | stm x | str x => exact ⟨o, by simp only [effect, storeRegs_withOutputs]; rfl⟩
  | ldm x | ldr x => exact ⟨o, by simp only [effect, loadRegs_withOutputs]; rfl⟩
  | call nnn =>
    by_cases h : s.sp.val < 16
    · exact ⟨o, by rw [effect_call h, effect_call (s := withOutputs s o) h]; rfl⟩
    · exact ⟨o, by rw [effect_call_full h, effect_call_full (s := withOutputs s o) h]⟩
  | ldk x =>
    by_cases h : s.released = 0
    · exact ⟨o, by rw [effect_ldk_wait x h, effect_ldk_wait (s := withOutputs s o) x h]; rfl⟩
    · exact ⟨o, by rw [effect_ldk_key x h, effect_ldk_key (s := withOutputs s o) x h]; rfl⟩
  | sei | snei | ser | sner | skp | sknp => exact ⟨o, skipIf_withOutputs s o _⟩
  | aud => exact ⟨{ o with audio := (withOutputs s o).audioBytes }, rfl⟩
  | cls => exact ⟨{ o with dirty := true }, rfl⟩
  | ldst x => exact ⟨{ o with st := s.readV x }, rfl⟩
  | ldpitch x => exact ⟨{ o with pitch := s.readV x }, rfl⟩
  | drw x y n => exact ⟨outputsOf (effect (.drw x y n) (withOutputs s o)), rfl⟩
  | drwx x y => exact ⟨outputsOf (effect (.drwx x y) (withOutputs s o)), rfl⟩
  | _ => exact ⟨o, rfl⟩

/-- Nor does an instruction. -/
theorem exec_withOutputs (i : Instr) (s : State) (o : Outputs) : ∃ t o', exec i s = .next t ∧
    exec i (withOutputs s o) = .next (withOutputs t o') ∧ o'.result = t.result := by
  cases hf : Laws.failure i s with
  | some e =>
    have hf' := (failure_withOutputs i s o).trans hf
    exact ⟨_, { o with result := .error e }, exec_fails hf, exec_fails hf', rfl⟩
  | none =>
    obtain ⟨o', ho'⟩ := effect_withOutputs i s o
    have hf' := (failure_withOutputs i s o).trans hf
    exact ⟨_, { o' with result := .ok }, exec_completes hf, by rw [exec_completes hf', ho']; rfl, rfl⟩

/-- Nor does a step. -/
theorem step_withOutputs (s : State) (o : Outputs) : ∃ t o', step s = .next t ∧
    step (withOutputs s o) = .next (withOutputs t o') ∧ o'.result = t.result := by
  cases hf : s.fetchWord with
  | none => exact ⟨_, { o with result := .error .addressOverflow }, step_of_fetchWord_none hf,
      step_of_fetchWord_none (s := withOutputs s o) hf, rfl⟩
  | some w =>
    have hf' : (withOutputs s o).fetchWord = some w := hf
    cases hd : decode w with
    | error e => exact ⟨_, { o with result := .error .invalidInstruction }, step_of_decode_error hf hd,
        step_of_decode_error hf' hd, rfl⟩
    | ok i =>
      obtain ⟨t, o', ht, ht', hr⟩ := exec_withOutputs i s.advance o
      refine ⟨t.clearReleased, o', ?_, ?_, hr⟩
      · rw [step_of_decode_ok hf hd, ht]; rfl
      · rw [step_of_decode_ok hf' hd, show (withOutputs s o).advance = withOutputs s.advance o from rfl, ht']; rfl

/-! ### The statements -/

/-- Settles O16: the frame of an instruction, and the lists of what each can write. -/
theorem onlyStoresWriteMemoryOnlyCallsTheStack : Obligations.OnlyStoresWriteMemoryOnlyCallsTheStack := by
  intro i s t h
  have hframe := exec_frame h
  refine ⟨fun hi o => hframe (.byte o) (byte_not_written hi o), fun hi => ?_⟩
  obtain ⟨hdepth, hslot⟩ := stack_not_written hi
  exact ⟨hframe .depth hdepth, fun k => hframe (.stackSlot k) (hslot k)⟩

/-- Settles O17: the frame of an instruction; the three that write the dirty flag keep it set. -/
theorem onlyDisplayInstructionsTouchTheDisplay : Obligations.OnlyDisplayInstructionsTouchTheDisplay := by
  intro i s t h
  have hframe := exec_frame h
  refine ⟨fun hi => ?_, fun hi => hframe .planes (planes_not_written hi), fun hs => ?_⟩
  · obtain ⟨hdirty, hp1, hp2⟩ := display_not_written hi
    have h1 : t.p1 = s.p1 := hframe .plane1 hp1
    have h2 : t.p2 = s.p2 := hframe .plane2 hp2
    exact ⟨hframe .dirty hdirty, fun px py => ⟨by rw [h1], by rw [h2]⟩⟩
  · exact exec_next_of_effect (motive := fun u => u.dirty = true) h (fun _ _ hu => hu) hs
      fun _ => effect_keeps_dirty i hs

/-- Settles O18: the frame of an instruction. -/
theorem specialRegistersHaveOneWriter : Obligations.SpecialRegistersHaveOneWriter := by
  intro i s t h
  have hframe := exec_frame h
  obtain ⟨hpressed, hreleased, hconfig⟩ := keys_config_not_written i s
  exact ⟨fun hi => hframe .dt (dt_not_written hi), fun hi => hframe .st (st_not_written hi),
    fun hi => hframe .pitch (pitch_not_written hi), fun hi k => hframe (.audio k) (audio_not_written hi k),
    hframe .pressed hpressed, hframe .released hreleased, hframe .config hconfig⟩

/-- Settles O19: the frame of an instruction. -/
theorem indexAndPcWriters : Obligations.IndexAndPcWriters := fun _ _ _ h =>
  ⟨fun hi => exec_frame h .index (index_not_written hi), fun hi => exec_frame h .pc (pc_not_written hi)⟩

/-- Settles O20: outside R35's table by the frame, inside it by the value every flag producer writes last. -/
theorem flagRegisterWriters : Obligations.FlagRegisterWriters := by
  intro i s t h
  refine ⟨fun hImm hMov hX hRange hi => exec_frame h (.reg 15) (flag_not_written hImm hMov hX hRange hi),
    fun hi hr => ?_⟩
  obtain ⟨-, rfl⟩ := exec_ok h hr
  obtain ⟨f, hf⟩ := effect_flag s hi
  cases f
  · exact .inl hf
  · exact .inr hf

/-- Settles O21: a step of a state with other outputs is the step with other outputs. -/
theorem outputsAreNeverRead : Obligations.OutputsAreNeverRead := by
  intro s st pitch audio dirty r
  obtain ⟨t, o', ht, ht', hr⟩ := step_withOutputs s ⟨st, pitch, audio, dirty, r⟩
  exact ⟨t, withOutputs t o', ht, ht', hr, frame_withOutputs t o'⟩

end Sys2Proof.Proofs.WholeMachine

/-! ## Proofs: control flow and keys (`40_control_flow.md` R100 to R108, `45_keys.md` R190 to R192) -/

namespace Sys2Proof.Proofs.ControlFlow

open Sys2Proof.Machine Sys2Proof.Laws Sys2Proof.Proofs.Encoding Sys2Proof.Proofs.HostInterface Sys2Proof.Proofs.Writes

/-! ### Jumps (R101, R103, R104) -/

section Jumps

variable {i : Instr} {s : State} {target : Nat}

/-- The check of a target and the two bounds at which it fails. -/
theorem target_fails (hf : Laws.failure i s = targetFailure s.config target) :
    (target < s.config.reserved → s.failsWith (exec i s) .addressUnderflow) ∧
    (s.config.logicalTop ≤ target → s.config.reserved ≤ target → s.failsWith (exec i s) .addressOverflow) :=
  ⟨fun hlow => exec_failsWith (hf.trans (targetFailure_under hlow)),
    fun hhigh hlow => exec_failsWith (hf.trans (targetFailure_over hhigh hlow))⟩

/-- An instruction that checks a target and goes there. -/
theorem jump_completes (hf : Laws.failure i s = targetFailure s.config target)
    (he : effect i s = s.setPc (targetOffset s.config target)) (hlow : s.config.reserved ≤ target)
    (hhigh : target < s.config.logicalTop) :
    ∃ t, exec i s = .next t ∧ t.result = .ok ∧ t.pc = BitVec.ofNat 16 (target - s.config.reserved) ∧
      s.unchangedBut [.pc] t :=
  exec_completes_with (hf.trans (targetFailure_none hhigh hlow))
    ⟨rfl, by rw [he]; rfl, by rw [he]; exact frame_setResult (frame_setPc s _) _⟩

end Jumps

/-! ### The call stack (R100, R102) -/

theorem top_eq {s : State} {k : Fin 16} (hk : s.sp.val = k.val + 1) : s.top = s.stack[k] := by
  simp only [State.top, hk, Nat.add_sub_cancel, Fin.getElem_fin]

/-- `RET` on a stack with `k + 1` entries. -/
theorem ret_completes {s : State} {k : Fin 16} (hk : s.sp.val = k.val + 1) :
    ∃ t, exec .ret s = .next t ∧ t.result = .ok ∧ t.sp.val = k.val ∧ t.pc = s.stack[k] ∧
      s.unchangedBut [.pc, .depth, .stackSlot k] t := by
  have hf : Laws.failure .ret s = none := if_neg (by omega)
  refine exec_completes_with hf ⟨rfl, ?_, top_eq hk, ?_⟩
  · show s.popDepth.sp.val = k.val
    rw [popDepth_sp_val, hk, Nat.add_sub_cancel]
  · exact frame_setResult (frame_mono (frame_effect .ret s) (by simp [written])) _

/-- `CALL` on a stack with `k` entries, to a target inside memory. -/
theorem call_completes {s : State} {k : Fin 16} {nnn : BitVec 12} (hk : s.sp.val = k.val)
    (hf : targetFailure s.config nnn.toNat = none) :
    ∃ t, exec (.call nnn) s = .next t ∧ t.result = .ok ∧ t.sp.val = k.val + 1 ∧ t.stack[k] = s.pc ∧
      t.pc = BitVec.ofNat 16 (nnn.toNat - s.config.reserved) ∧ s.unchangedBut [.pc, .depth, .stackSlot k] t := by
  have hsp : s.sp.val < 16 := hk ▸ k.isLt
  refine exec_completes_with ((failure_call hsp).trans hf) ?_
  rw [effect_call hsp]
  have hframe := frame_trans (frame_push hk s.pc hsp) (frame_setPc _ (targetOffset s.config nnn.toNat))
  refine ⟨rfl, congrArg (· + 1) hk, ?_, rfl, frame_setResult (frame_mono hframe (by simp)) _⟩
  show (s.stack.set s.sp.val s.pc)[k.val] = s.pc
  simp [hk]

/-! ### Skips (R105 to R108, R190, R191) -/

/-- An instruction that skips on a condition. -/
theorem skip_completes {i : Instr} {s : State} {c : Bool} (hf : Laws.failure i s = none)
    (he : effect i s = s.skipIf c) :
    ∃ t, exec i s = .next t ∧ t.result = .ok ∧ t.pc = (if c = true then s.pc + 2 else s.pc) ∧ s.unchangedBut [.pc] t :=
  exec_completes_with hf
    ⟨rfl, by rw [he, setResult_pc, skipIf_pc], by rw [he]; exact frame_setResult (frame_skipIf s c) _⟩

theorem keyPressed_iff {s : State} {x : Reg} :
    s.keyPressed x = true ↔ (s.readV x).toNat ≤ 15 ∧ s.pressed.getLsbD (s.readV x).toNat = true := by
  rw [State.keyPressed, Bool.and_eq_true, decide_eq_true_eq]

/-! ### Waiting for a key (R192) -/

theorem ne_zero_of_getLsbD {m : BitVec 16} {k : Nat} (h : m.getLsbD k = true) : m ≠ 0 := by
  rintro rfl
  simp at h

theorem getLsbD_setBit_self (m : BitVec 16) (k : Fin 16) : (setBit m k.val).getLsbD k.val = true := by
  rw [getLsbD_setBit m k.val k.isLt, decide_eq_true rfl, Bool.or_true]

/-- The lowest bit of a mask with one bit. -/
theorem lsbIndex_setBit_zero (k : Fin 16) : lsbIndex (setBit 0 k.val) = k.val :=
  lsbIndex_eq k.isLt (getLsbD_setBit_self 0 k) fun j hj => by
    rw [getLsbD_setBit _ _ (by omega), decide_eq_false (by omega)]
    simp

/-! ### The statements -/

/-- Settles O22: the two branches of `RET`. -/
theorem returnPopsTheStack : Obligations.ReturnPopsTheStack := fun _ =>
  ⟨fun h => exec_failsWith (if_pos (congrArg Fin.val h)), fun _ hk => ret_completes hk⟩

/-- Settles O23: both jumps check their target and go there. -/
theorem jumpsTranslateTheirTarget : Obligations.JumpsTranslateTheirTarget := by
  intro nnn s i target hi
  have hspec : Laws.failure i s = targetFailure s.config target ∧
      effect i s = s.setPc (targetOffset s.config target) := by
    obtain ⟨rfl, rfl⟩ | ⟨rfl, rfl⟩ := hi <;> exact ⟨rfl, rfl⟩
  obtain ⟨hf, he⟩ := hspec
  obtain ⟨hunder, hover⟩ := target_fails hf
  exact ⟨hunder, hover, jump_completes hf he⟩

/-- Settles O24: the capacity, then the target, then the push and the jump. -/
theorem callPushesAndJumps : Obligations.CallPushesAndJumps := by
  intro nnn s
  refine ⟨fun h => exec_failsWith (if_neg (by simp [h])), fun k hk => ?_⟩
  obtain ⟨hunder, hover⟩ := target_fails (failure_call (nnn := nnn) (s := s) (hk ▸ k.isLt))
  exact ⟨hunder, hover, fun hlow hhigh => call_completes hk (targetFailure_none hhigh hlow)⟩

/-- Settles O25: the entry the call pushed is the one the return pops. -/
theorem returnUndoesCall : Obligations.ReturnUndoesCall := by
  intro nnn s t u k hcall hok hk hsp hslot
  obtain ⟨hf, -⟩ := exec_ok hcall hok
  rw [failure_call (hk ▸ k.isLt)] at hf
  obtain ⟨t', hcall', -, hdepth, hpushed, -, -⟩ := call_completes hk hf
  obtain rfl : t' = t := by rw [hcall'] at hcall; exact Host.Outcome.next.inj hcall
  obtain ⟨v, hret, hvok, hvsp, hvpc, -⟩ := ret_completes (s := u) (k := k) (by rw [hsp, hdepth])
  exact ⟨v, hret, hvok, by rw [hvpc, hslot, hpushed], Fin.ext (hvsp.trans hk.symm)⟩

/-- Settles O26: each form is a skip on its condition. -/
theorem skipsAddOneInstructionWidth : Obligations.SkipsAddOneInstructionWidth := by
  intro x y nn s i c hi
  obtain ⟨rfl, rfl⟩ | ⟨rfl, rfl⟩ | ⟨rfl, rfl⟩ | ⟨rfl, rfl⟩ := hi
  · exact skip_completes rfl rfl
  · exact skip_completes rfl (by rw [decide_not]; rfl)
  · exact skip_completes rfl rfl
  · exact skip_completes rfl (by rw [decide_not]; rfl)

/-- Settles O27: both forms are a skip on the pressed bit. -/
theorem keySkipsTestThePressedMask : Obligations.KeySkipsTestThePressedMask := by
  intro x s down
  have hiff : s.keyPressed x = true ↔ down := keyPressed_iff
  obtain ⟨t, ht, htok, htpc, htframe⟩ := skip_completes (i := .skp x) (s := s) rfl rfl
  obtain ⟨u, hu, huok, hupc, huframe⟩ := skip_completes (i := .sknp x) (s := s) rfl rfl
  refine ⟨⟨t, ht, htok, htframe, fun hd => ?_, fun hd => ?_⟩, ⟨u, hu, huok, huframe, fun hd => ?_, fun hd => ?_⟩⟩
  · rw [htpc, if_pos (hiff.2 hd)]
  · rw [htpc, if_neg (hiff.not.2 hd)]
  · rw [hupc, hiff.2 hd]; rfl
  · rw [hupc, Bool.eq_false_iff.2 (hiff.not.2 hd)]; rfl

/-- Settles O28: the two branches of `LDK`. -/
theorem waitForKeyPollsTheReleaseEdges : Obligations.WaitForKeyPollsTheReleaseEdges := by
  intro x s
  refine ⟨fun hnone => exec_completes_with rfl ?_, fun k hk hlow => exec_completes_with rfl ?_⟩
  · rw [effect_ldk_wait x hnone]
    exact ⟨rfl, rfl, frame_setResult (frame_setPc s _) _⟩
  · have hindex : lsbIndex s.released = k.val := lsbIndex_eq k.isLt hk fun j hj => hlow ⟨j, by omega⟩ hj
    rw [effect_ldk_key x (ne_zero_of_getLsbD hk), hindex]
    exact ⟨rfl, readV_writeV_self s x _, frame_setResult (frame_writeV s x _) _⟩

/-- Settles O29: the event latches the one edge that the step finds, uses and clears. -/
theorem keyReleaseEndsTheWait : Obligations.KeyReleaseEndsTheWait := by
  intro s x k w hnone hf hd
  have hup : s.keyUp k.val = { s with pressed := clearBit s.pressed k.val, released := setBit 0 k.val } := by
    rw [keyUp_eq, hnone]
  have hedge : (s.keyUp k.val).advance.released = setBit 0 k.val := by rw [hup]; rfl
  have hlatched : (s.keyUp k.val).advance.released ≠ 0 := by
    rw [hedge]
    exact ne_zero_of_getLsbD (getLsbD_setBit_self 0 k)
  have hstep : step (s.keyUp k.val) = .next
      (((s.keyUp k.val).advance.writeV x (BitVec.ofNat 8 k.val)).setResult .ok).clearReleased := by
    rw [step_of_decode_ok (w := w) (by rw [hup]; exact hf) hd, exec_completes rfl, effect_ldk_key x hlatched, hedge,
      lsbIndex_setBit_zero, endOfStep]
  have hrun : runCommands [.keyUp k.val, .step] s = step (s.keyUp k.val) := by
    simp only [runCommands, command, hstep]
  have hkeys : s.unchangedBut [.pressed, .released] (s.keyUp k.val) := hup ▸ frame_keyMasks s _ _
  have hframe := frame_trans (frame_trans (frame_trans hkeys (frame_setPc _ ((s.keyUp k.val).pc + 2)))
    (frame_setResult (frame_writeV _ x (BitVec.ofNat 8 k.val)) .ok)) (frame_clearReleased _)
  have hpc : (s.keyUp k.val).pc + 2 = s.pc + 2 := by rw [hup]
  exact ⟨_, hrun.trans hstep, rfl, readV_writeV_self _ x _, hpc, rfl, frame_mono hframe (by simp)⟩

end Sys2Proof.Proofs.ControlFlow

/-! ## Proofs: arithmetic, logic and the copies into a register (`41_arith_logic.md` R120 to R132, R180) -/

namespace Sys2Proof.Proofs.Arithmetic

open Sys2Proof.Machine Sys2Proof.Laws

/-! ### The two shapes of an instruction that writes a register -/

section Shapes

variable {i : Instr} {s : State} {x : Reg} {b : Byte} {f : Bool}

/-- A destination without a flag. -/
theorem dest_completes (hf : Laws.failure i s = none) (he : effect i s = s.writeV x b) :
    ∃ t, exec i s = .next t ∧ t.result = .ok ∧ t.readV x = b ∧ s.unchangedBut [.reg x] t := by
  refine exec_completes_with hf ?_
  rw [he]
  exact ⟨rfl, readV_writeV_self s x b, frame_setResult (frame_writeV s x b) _⟩

/-- A destination and then the flag (R131). -/
theorem result_completes (hf : Laws.failure i s = none) (he : effect i s = s.writeResult x b f) :
    ∃ t, exec i s = .next t ∧ t.result = .ok ∧ t.readV 15 = (if f = true then 1 else 0) ∧
      (x ≠ 15 → t.readV x = b) ∧ s.unchangedBut [.reg x, .reg 15] t := by
  refine exec_completes_with hf ?_
  rw [he]
  exact ⟨rfl, writeResult_flag s x b f, fun hx => writeResult_dest s hx b f,
    frame_setResult (frame_writeResult s x b f) _⟩

/-- The second shape, with the flag as a proposition and the result as a number. -/
theorem number_completes {p : Prop} [Decidable p] {n : Nat} (hf : Laws.failure i s = none)
    (he : effect i s = s.writeResult x b f) (hflag : f = true ↔ p) (hvalue : b.toNat = n) :
    ∃ t, exec i s = .next t ∧ t.result = .ok ∧ t.readV 15 = (if p then 1 else 0) ∧
      (x ≠ 15 → (t.readV x).toNat = n) ∧ s.unchangedBut [.reg x, .reg 15] t := by
  obtain ⟨t, ht, hok, hvf, hx, hframe⟩ := result_completes hf he
  exact ⟨t, ht, hok, by rw [hvf]; exact if_congr hflag rfl rfl, fun h => by rw [hx h, hvalue], hframe⟩

end Shapes

/-! ### Results and flags as numbers (R132) -/

theorem toNat_sumOf (a b : Byte) : (sumOf a b).toNat = (a.toNat + b.toNat) % 256 := BitVec.toNat_ofNat _ _

theorem toNat_differenceOf (a b : Byte) :
    (differenceOf a b).toNat = if a.toNat ≥ b.toNat then a.toNat - b.toNat else a.toNat + 256 - b.toNat := by
  have ha := a.isLt
  have hb := b.isLt
  rw [differenceOf, BitVec.toNat_ofNat]
  split_ifs <;> omega

theorem carryFlag_iff {a b : Byte} : carryFlag a b = true ↔ a.toNat + b.toNat > 255 := decide_eq_true_iff

theorem notBorrowFlag_iff {a b : Byte} : notBorrowFlag a b = true ↔ a.toNat ≥ b.toNat := decide_eq_true_iff

theorem toNat_shrOne (a : Byte) : (shrOne a).value.toNat = a.toNat / 2 := by
  have ha := a.isLt
  rw [shrOne, BitVec.toNat_ofNat]
  omega

theorem toNat_shlOne (a : Byte) : (shlOne a).value.toNat = a.toNat * 2 % 256 := BitVec.toNat_ofNat _ _

/-- The shifted value for every count: nothing is left from 8 on. -/
theorem toNat_shrBy (a : Byte) (n : Nat) : (shrBy a n).value.toNat = a.toNat / 2 ^ n := by
  have hsmall : a.toNat / 2 ^ n < 2 ^ 8 := (Nat.div_le_self _ _).trans_lt a.isLt
  have hlarge : 8 ≤ n → a.toNat / 2 ^ n = 0 := fun hn =>
    Nat.div_eq_of_lt (a.isLt.trans_le (Nat.pow_le_pow_right (by decide) hn))
  unfold shrBy
  split_ifs with h0 h7 h8
  · simp [h0]
  · exact (BitVec.toNat_ofNat _ _).trans (Nat.mod_eq_of_lt hsmall)
  · exact (hlarge (by omega)).symm
  · exact (hlarge (by omega)).symm

theorem toNat_shlBy (a : Byte) (n : Nat) : (shlBy a n).value.toNat = a.toNat * 2 ^ n % 256 := by
  have hlarge : 8 ≤ n → a.toNat * 2 ^ n % 256 = 0 := fun hn =>
    Nat.mod_eq_zero_of_dvd (Dvd.dvd.mul_left (pow_dvd_pow 2 hn) _)
  unfold shlBy
  split_ifs with h0 h7 h8
  · simpa [h0] using (Nat.mod_eq_of_lt a.isLt).symm
  · exact BitVec.toNat_ofNat _ _
  · exact (hlarge (by omega)).symm
  · exact (hlarge (by omega)).symm

/-- The last bit shifted out on the right (D9). -/
theorem shrBy_flag_iff {a : Byte} {n : Nat} :
    (shrBy a n).flag = true ↔ 1 ≤ n ∧ n ≤ 8 ∧ a.getLsbD (n - 1) = true := by
  unfold shrBy
  split_ifs with h0 h7 h8
  · simp [h0]
  · simp [show 1 ≤ n by omega, show n ≤ 8 by omega]
  · simp [h8]
  · simp [show ¬ n ≤ 8 by omega]

/-- The last bit shifted out on the left (D9). -/
theorem shlBy_flag_iff {a : Byte} {n : Nat} :
    (shlBy a n).flag = true ↔ 1 ≤ n ∧ n ≤ 8 ∧ a.getLsbD (8 - n) = true := by
  unfold shlBy
  split_ifs with h0 h7 h8
  · simp [h0]
  · simp [show 1 ≤ n by omega, show n ≤ 8 by omega]
  · simp [h8]
  · simp [show ¬ n ≤ 8 by omega]

/-! ### The statements -/

/-- Settles O30: both write one destination. -/
theorem immediateLoadAndAdd : Obligations.ImmediateLoadAndAdd := by
  intro x nn s
  obtain ⟨t, ht, hok, hx, hframe⟩ := dest_completes (i := .addn x nn) (s := s) rfl rfl
  exact ⟨dest_completes rfl rfl, t, ht, hok, by rw [hx, toNat_sumOf], hframe⟩

/-- Settles O31: both write one destination. -/
theorem registerCopyAndTimerRead : Obligations.RegisterCopyAndTimerRead := fun _ _ _ =>
  ⟨dest_completes rfl rfl, dest_completes rfl rfl⟩

/-- Settles O32: the flag is false, and the result's bits are those of the operation. -/
theorem logicWritesItsResultThenZeroesTheFlag : Obligations.LogicWritesItsResultThenZeroesTheFlag := by
  intro x y s i f hi
  obtain ⟨b, he, hb⟩ : ∃ b, effect i s = s.writeResult x b false ∧
      ∀ k, b.getLsbD k = f ((s.readV x).getLsbD k) ((s.readV y).getLsbD k) := by
    obtain ⟨rfl, rfl⟩ | ⟨rfl, rfl⟩ | ⟨rfl, rfl⟩ := hi
    · exact ⟨_, rfl, fun k => BitVec.getLsbD_or⟩
    · exact ⟨_, rfl, fun k => BitVec.getLsbD_and⟩
    · exact ⟨_, rfl, fun k => BitVec.getLsbD_xor⟩
  have hf : Laws.failure i s = none := by
    obtain ⟨rfl, -⟩ | ⟨rfl, -⟩ | ⟨rfl, -⟩ := hi <;> rfl
  obtain ⟨t, ht, hok, hflag, hx, hframe⟩ := result_completes hf he
  exact ⟨t, ht, hok, hflag, fun h k => by rw [hx h, hb], hframe⟩

/-- Settles O33: the sum and its carry. -/
theorem addWritesSumThenCarry : Obligations.AddWritesSumThenCarry := fun _ _ _ =>
  number_completes rfl rfl carryFlag_iff (toNat_sumOf _ _)

/-- Settles O34: the difference and its not-borrow, with the operands in either order. -/
theorem subtractsWriteDifferenceThenNotBorrow : Obligations.SubtractsWriteDifferenceThenNotBorrow := by
  intro x y s i a b hi
  obtain ⟨rfl, rfl, rfl⟩ | ⟨rfl, rfl, rfl⟩ := hi
  · exact number_completes rfl rfl notBorrowFlag_iff (toNat_differenceOf _ _)
  · exact number_completes rfl rfl notBorrowFlag_iff (toNat_differenceOf _ _)

/-- Settles O35: in the default mode the shifts are by one bit. -/
theorem shiftsByOneInDefaultMode : Obligations.ShiftsByOneInDefaultMode := by
  intro x y s hmode a
  have hshr : shrIn s.config a (s.readV y).toNat = shrOne a := if_neg (by simp [hmode])
  have hshl : shlIn s.config a (s.readV y).toNat = shlOne a := if_neg (by simp [hmode])
  exact ⟨number_completes rfl rfl (by rw [hshr]; rfl) (by rw [hshr, toNat_shrOne]),
    number_completes rfl rfl (by rw [hshl]; rfl) (by rw [hshl, toNat_shlOne])⟩

/-- Settles O36: in the variable mode the shifts are by the count in `V[Y]`. -/
theorem shiftsByRegisterInVariableMode : Obligations.ShiftsByRegisterInVariableMode := by
  intro x y s hmode a n
  have hshr : shrIn s.config a n = shrBy a n := if_pos hmode
  have hshl : shlIn s.config a n = shlBy a n := if_pos hmode
  exact ⟨number_completes rfl rfl (by rw [hshr]; exact shrBy_flag_iff) (by rw [hshr, toNat_shrBy]),
    number_completes rfl rfl (by rw [hshl]; exact shlBy_flag_iff) (by rw [hshl, toNat_shlBy])⟩

end Sys2Proof.Proofs.Arithmetic

/-! ## Proofs: index register, memory transfer, timers and audio (`42_memory_index.md` R140 to R150,
`44_timer_audio.md` R181 to R184) -/

namespace Sys2Proof.Proofs.MemoryIndex

open Sys2Proof.Machine Sys2Proof.Laws Sys2Proof.Proofs.Writes

/-! ### The index register -/

/-- An instruction that loads the index register. -/
theorem index_completes {i : Instr} {s : State} {a : Word} (hf : Laws.failure i s = none) (he : effect i s = s.setI a) :
    ∃ t, exec i s = .next t ∧ t.result = .ok ∧ t.i = a ∧ s.unchangedBut [.index] t := by
  refine exec_completes_with hf ?_
  rw [he]
  exact ⟨rfl, rfl, frame_setResult (frame_setI s a) _⟩

theorem failure_ldl_none {s : State} (h : s.fetchWord = none) : Laws.failure .ldl s = some .addressOverflow := if_pos h

theorem failure_ldl_some {s : State} {w : Word} (h : s.fetchWord = some w) : Laws.failure .ldl s = none :=
  if_neg (by simp [h])

theorem effect_ldl {s : State} {w : Word} (h : s.fetchWord = some w) : effect .ldl s = s.advance.setI w := by
  simp only [effect, h, Option.getD_some]

/-! ### Stores (R146, R148) -/

/-- Different bytes of one access go to different offsets. -/
theorem storedOffset_addrAt_ne {s : State} {j k : Nat} (hj : j < 65536) (hk : k < 65536)
    (hwj : s.canWrite (s.addrAt j)) (hwk : s.canWrite (s.addrAt k)) (hne : j ≠ k) :
    s.storedOffset (s.addrAt j) ≠ s.storedOffset (s.addrAt k) :=
  fun h => hne (addrAt_inj hj hk (storedOffset_inj hwj hwk h))

theorem storeRegs_i (s : State) (lo n : Nat) : (s.storeRegs lo n).i = s.i := by
  rw [storeRegs_eq]

theorem loadRegs_i (s : State) (lo n : Nat) : (s.loadRegs lo n).i = s.i := by
  rw [loadRegs_eq]

/-- The form of a range store. -/
structure StoresRange (i : Instr) (s : State) (lo n : Nat) : Prop where
  range : lo + n ≤ 16
  failure : Laws.failure i s = s.checkWrites n
  effect : Laws.effect i s = (s.storeRegs lo n).bumpI n

/-- The form of a range load. -/
structure LoadsRange (i : Instr) (s : State) (lo n : Nat) : Prop where
  range : lo + n ≤ 16
  failure : Laws.failure i s = s.checkReads n
  effect : Laws.effect i s = (s.loadRegs lo n).bumpI n

theorem stm_storesRange (x : Reg) (s : State) : StoresRange (.stm x) s 0 (x.val + 1) := ⟨by omega, rfl, rfl⟩

theorem str_storesRange (x y : Reg) (s : State) : StoresRange (.str x y) s (rangeLow x y) (rangeCount x y) :=
  ⟨rangeLow_add_count_le x y, rfl, rfl⟩

theorem ldm_loadsRange (x : Reg) (s : State) : LoadsRange (.ldm x) s 0 (x.val + 1) := ⟨by omega, rfl, rfl⟩

theorem ldr_loadsRange (x y : Reg) (s : State) : LoadsRange (.ldr x y) s (rangeLow x y) (rangeCount x y) :=
  ⟨rangeLow_add_count_le x y, rfl, rfl⟩

/-- A range store that can write all its bytes. -/
theorem store_completes {i : Instr} {s : State} {lo n : Nat} (h : StoresRange i s lo n)
    (hw : ∀ k < n, s.canWrite (s.addrAt k)) :
    ∃ t, exec i s = .next t ∧ t.result = .ok ∧ t.i = s.i + BitVec.ofNat 16 n ∧
      (∀ (k : Nat) (r : Reg), k < n → r.val = lo + k → memRead t.mem (s.storedOffset (s.addrAt k)) = s.readV r) ∧
      s.unchangedBut (.index :: s.bytesAt n) t := by
  refine exec_completes_with (h.failure.trans (checkWrites_eq_none.2 hw)) ?_
  have hrange := h.range
  rw [h.effect]
  refine ⟨rfl, congrArg (· + BitVec.ofNat 16 n) (storeRegs_i s lo n), fun k r hk hr => ?_, ?_⟩
  · rw [setResult_mem, bumpI_mem, (memRead_storeRegs (by omega) hw).1 k hk, regOf_val hr]
  · exact frame_setResult (frame_mono (frame_trans (frame_storeRegs s lo n) (frame_setI _ _)) (by simp [or_comm])) _

theorem regsFrom_index_subset (lo n : Nat) :
    ∀ p ∈ regsFrom lo n ++ [.index], p ∈ .index :: (List.finRange 16).map Part.reg := by
  intro p hp
  rw [List.mem_append, mem_regsFrom_iff, List.mem_singleton] at hp
  obtain ⟨k, -, rfl⟩ | rfl := hp <;> simp

/-- A range load that can read all its bytes. -/
theorem load_completes {i : Instr} {s : State} {lo n : Nat} (h : LoadsRange i s lo n)
    (hr : ∀ k < n, s.canRead (s.addrAt k)) :
    ∃ t, exec i s = .next t ∧ t.result = .ok ∧ t.i = s.i + BitVec.ofNat 16 n ∧
      (∀ (k : Nat) (r : Reg), k < n → r.val = lo + k → t.readV r = s.readByte (s.addrAt k)) ∧
      (∀ r : Reg, r.val < lo ∨ lo + n ≤ r.val → t.readV r = s.readV r) ∧
      s.unchangedBut (.index :: (List.finRange 16).map Part.reg) t := by
  refine exec_completes_with (h.failure.trans (checkReads_eq_none.2 hr)) ?_
  obtain ⟨hloaded, hkept⟩ := readV_loadRegs s lo n h.range
  rw [h.effect]
  have hframe := frame_mono (frame_trans (frame_loadRegs s lo n) (frame_setI _ ((s.loadRegs lo n).addrAt n)))
    (regsFrom_index_subset lo n)
  exact ⟨rfl, congrArg (· + BitVec.ofNat 16 n) (loadRegs_i s lo n), hloaded, hkept, frame_setResult hframe _⟩

/-! ### A load after a store -/

/-- Where a write succeeds a read takes the stored byte, since the font lies below the stored memory (R6). -/
theorem readByte_stored {s : State} {a : Word} (hfont : s.config.fontSize ≤ s.config.reserved) (h : s.canWrite a) :
    s.readByte a = memRead s.mem (s.storedOffset a) := if_neg (by have := h.1; omega)

/-- A range that a store put away comes back by the load of the same range. -/
theorem load_after_store {store load : Instr} {s t u : State} {lo n : Nat} {r : Reg} (hstore : StoresRange store s lo n)
    (hload : LoadsRange load u lo n) (hr : lo ≤ r.val ∧ r.val < lo + n)
    (hfont : s.config.fontSize ≤ s.config.reserved) (hexec : exec store s = .next t) (hok : t.result = .ok)
    (hi : u.i = s.i) (hmem : u.mem = t.mem) (hconfig : u.config = s.config) :
    ∃ v, exec load u = .next v ∧ v.result = .ok ∧ v.readV r = s.readV r := by
  have haddr : ∀ k, u.addrAt k = s.addrAt k := fun k => by rw [State.addrAt, hi, State.addrAt]
  have hwrite : ∀ k < n, s.canWrite (s.addrAt k) :=
    checkWrites_eq_none.1 (hstore.failure ▸ (exec_ok hexec hok).1)
  have hwrite' : ∀ k < n, u.canWrite (u.addrAt k) := fun k hk => by
    rw [State.canWrite, hconfig, haddr]
    exact hwrite k hk
  obtain ⟨t', ht', -, -, hbytes, -⟩ := store_completes hstore hwrite
  obtain rfl : t' = t := by rw [ht'] at hexec; exact Host.Outcome.next.inj hexec
  obtain ⟨v, hv, hvok, -, hloaded, -, -⟩ := load_completes hload fun k hk => canWrite_canRead (hwrite' k hk)
  obtain ⟨k, hk, hrk⟩ : ∃ k < n, r.val = lo + k := ⟨r.val - lo, by omega, by omega⟩
  refine ⟨v, hv, hvok, ?_⟩
  calc v.readV r = u.readByte (u.addrAt k) := hloaded k r hk hrk
    _ = memRead u.mem (u.storedOffset (u.addrAt k)) := readByte_stored (hconfig ▸ hfont) (hwrite' k hk)
    _ = memRead t'.mem (s.storedOffset (s.addrAt k)) := by
      rw [hmem, haddr, State.storedOffset, hconfig, State.storedOffset]
    _ = s.readV r := hbytes k r hk hrk

/-! ### The statements -/

/-- Settles O37: the immediate is zero-extended. -/
theorem indexLoadStoresTheImmediate : Obligations.IndexLoadStoresTheImmediate := by
  intro nnn s
  obtain ⟨t, ht, hok, hi, hframe⟩ := index_completes (i := .ldi nnn) (s := s) rfl rfl
  exact ⟨t, ht, hok, by rw [hi, BitVec.toNat_setWidth_of_le (by decide)], hframe⟩

/-- Settles O38: the sum is formed on numbers and reduced. -/
theorem indexAddWraps : Obligations.IndexAddWraps := by
  intro x s
  obtain ⟨t, ht, hok, hi, hframe⟩ := index_completes (i := .addi x) (s := s) rfl rfl
  exact ⟨t, ht, hok, by rw [hi, BitVec.toNat_ofNat], hframe⟩

/-- Settles O39: the fetch of the second word decides. -/
theorem longIndexLoadFetchesItsImmediate : Obligations.LongIndexLoadFetchesItsImmediate := by
  intro s
  refine ⟨fun hout => exec_failsWith (failure_ldl_none (fetchWord_none hout)), fun hin => ?_⟩
  have hf := fetchWord_some hin
  refine exec_completes_with (failure_ldl_some hf) ?_
  rw [effect_ldl hf]
  exact ⟨rfl, rfl, toNat_wordOfBytes _ _, frame_setResult (frame_trans (frame_setPc s _) (frame_setI _ _)) _⟩

/-- Settles O40: the bound on the digit decides. -/
theorem fontAddressIsRangeChecked : Obligations.FontAddressIsRangeChecked := fun _ _ =>
  ⟨fun h => exec_failsWith (if_pos h), fun h => index_completes (if_neg (by omega)) rfl⟩

/-- Settles O41: the three digits go to three different offsets. -/
theorem bcdStoresThreeDigits : Obligations.BcdStoresThreeDigits := by
  intro x s hw
  have hlt := (s.readV x).isLt
  have hne : ∀ j < 3, ∀ k < 3, j ≠ k → s.storedOffset (s.addrAt j) ≠ s.storedOffset (s.addrAt k) :=
    fun j hj k hk => storedOffset_addrAt_ne (by omega) (by omega) (hw j hj) (hw k hk)
  have hframe := frame_effect (.bcd x) s
  refine ⟨_, (s.readV x).toNat / 100, (s.readV x).toNat / 10 % 10, (s.readV x).toNat % 10,
    exec_completes (checkWrites_eq_none.2 hw), rfl, by omega, by omega, by omega, by omega, ?_, ?_, ?_,
    frame_setResult hframe _⟩
  all_goals rw [setResult_mem, effect_bcd]; dsimp only
  · rw [memRead_memWrite_ne _ (hne 0 (by decide) 2 (by decide) (by decide)),
      memRead_memWrite_ne _ (hne 0 (by decide) 1 (by decide) (by decide)), memRead_memWrite_self]
  · rw [memRead_memWrite_ne _ (hne 1 (by decide) 2 (by decide) (by decide)), memRead_memWrite_self]
  · rw [memRead_memWrite_self]

/-- Settles O42: both stores are a range store. -/
theorem registerStoresCopyAndMoveIndex : Obligations.RegisterStoresCopyAndMoveIndex := by
  intro x y s i lo n hi hw
  obtain ⟨rfl, rfl, rfl⟩ | ⟨rfl, rfl, rfl⟩ := hi
  · exact store_completes (stm_storesRange x s) hw
  · exact store_completes (str_storesRange x y s) hw

/-- Settles O43: both loads are a range load. -/
theorem registerLoadsCopyAndMoveIndex : Obligations.RegisterLoadsCopyAndMoveIndex := by
  intro x y s i lo n hi hr
  obtain ⟨rfl, rfl, rfl⟩ | ⟨rfl, rfl, rfl⟩ := hi
  · exact load_completes (ldm_loadsRange x s) hr
  · exact load_completes (ldr_loadsRange x y s) hr

/-- Settles O44: store and load are of the same range. -/
theorem loadUndoesStore : Obligations.LoadUndoesStore := by
  intro x y r s t u store load hforms hfont hexec hok hi hmem hconfig
  obtain ⟨rfl, rfl, hr⟩ | ⟨rfl, rfl, hlo, hhi⟩ := hforms
  · have hr : r.val ≤ x.val := hr
    exact load_after_store (stm_storesRange x s) (ldm_loadsRange x u) (by omega) hfont hexec hok hi hmem hconfig
  · have hlo : x.val ≤ r.val ∨ y.val ≤ r.val := min_le_iff.1 hlo
    have hhi : r.val ≤ x.val ∨ r.val ≤ y.val := le_max_iff.1 hhi
    have hrange : rangeLow x y ≤ r.val ∧ r.val < rangeLow x y + rangeCount x y := by
      rw [rangeLow_add_count, rangeLow]
      omega
    exact load_after_store (str_storesRange x y s) (ldr_loadsRange x y u) hrange hfont hexec hok hi hmem hconfig

/-- Settles O45: every store begins with the ordered check of its addresses. -/
theorem failingStoreChangesNothing : Obligations.FailingStoreChangesNothing := by
  intro x y s i n k hi hk hbefore hfails
  have hf : Laws.failure i s = s.checkWrites n := by
    obtain ⟨rfl, rfl⟩ | ⟨rfl, rfl⟩ | ⟨rfl, rfl⟩ := hi <;> rfl
  exact exec_failsWith (hf.trans (checkWrites_fails hk hbefore hfails))

/-- Settles O46: every read begins with the ordered check of its addresses. -/
theorem failingReadChangesNothing : Obligations.FailingReadChangesNothing := by
  intro x y h s i n k hi hk hbefore hfails
  have hf : Laws.failure i s = s.checkReads n := by
    obtain ⟨rfl, rfl⟩ | ⟨rfl, rfl⟩ | ⟨rfl, rfl⟩ | ⟨rfl, rfl⟩ | ⟨rfl, rfl⟩ := hi
    case inr.inr.inr.inl => exact congrArg (fun m => s.checkReads (s.selectedCount * m)) (Nat.one_mul _)
    all_goals rfl
  exact exec_failsWith (hf.trans (checkReads_fails hk hbefore hfails))

/-- Settles O52: each writes its one register. -/
theorem timerAndPitchLoads : Obligations.TimerAndPitchLoads := fun _ s =>
  ⟨exec_completes_with rfl ⟨rfl, rfl, frame_setResult (frame_dt s _) _⟩,
    exec_completes_with rfl ⟨rfl, rfl, frame_setResult (frame_st s _) _⟩,
    exec_completes_with rfl ⟨rfl, rfl, frame_setResult (frame_pitch s _) _⟩⟩

/-- Settles O53: the buffer is the vector of the bytes read. -/
theorem stageAudioCopiesSixteenBytes : Obligations.StageAudioCopiesSixteenBytes := by
  intro s hr
  refine exec_completes_with (checkReads_eq_none.2 hr) ?_
  rw [effect_aud]
  exact ⟨rfl, fun k => Vector.getElem_ofFn k.isLt, frame_setResult (frame_audio s _) _⟩

end Sys2Proof.Proofs.MemoryIndex

/-! ## Proofs: the display (`43_display.md` R160 to R164) -/

namespace Sys2Proof.Proofs.Display

open Sys2Proof.Machine Sys2Proof.Laws Sys2Proof.Proofs.Writes

/-! ### A draw (R162) -/

/-- The form of a draw of `wb` bytes a row and `rows` rows; its sprite fits the display. -/
structure Draws (i : Instr) (s : State) (x y : Reg) (wb rows : Nat) : Prop where
  width : 8 * wb ≤ 128
  height : rows ≤ 64
  failure : Laws.failure i s = s.checkReads (s.selectedCount * (wb * rows))
  effect : Laws.effect i s = composited x y wb rows s

/-- The two draws (R163, R164). -/
theorem draws_of_form {i : Instr} {x y : Reg} {n : BitVec 4} {wb rows : Nat}
    (h : (i = .drw x y n ∧ wb = 1 ∧ rows = n.toNat) ∨ (i = .drwx x y ∧ wb = 2 ∧ rows = 16)) (s : State) :
    Draws i s x y wb rows := by
  obtain ⟨rfl, rfl, rfl⟩ | ⟨rfl, rfl, rfl⟩ := h
  · exact ⟨by decide, by omega, rfl, rfl⟩
  · exact ⟨by decide, by decide, rfl, rfl⟩

theorem exists_pixel_or {p q : Fin 128 → Fin 64 → Prop} :
    (∃ px py, p px py ∨ q px py) ↔ (∃ px py, p px py) ∨ ∃ px py, q px py := by
  simp only [exists_or]

/-- A draw whose sprite bytes can be read. -/
theorem draw_completes {i : Instr} {s : State} {x y : Reg} {wb rows : Nat} (h : Draws i s x y wb rows)
    (hr : ∀ j < s.selectedCount * (wb * rows), s.canRead (s.addrAt j)) :
    ∃ t, exec i s = .next t ∧ t.result = .ok ∧
      (∀ px py, planeGet t.p1 px py = (planeGet s.p1 px py ^^ s.toggles1 x y wb rows px py)) ∧
      (∀ px py, planeGet t.p2 px py = (planeGet s.p2 px py ^^ s.toggles2 x y wb rows px py)) ∧
      t.readV 15 = (if ∃ px py, (s.toggles1 x y wb rows px py = true ∧ planeGet s.p1 px py = true) ∨
        (s.toggles2 x y wb rows px py = true ∧ planeGet s.p2 px py = true) then 1 else 0) ∧
      (t.dirty = true ↔ s.dirty = true ∨
        ∃ px py, s.toggles1 x y wb rows px py = true ∨ s.toggles2 x y wb rows px py = true) ∧
      s.unchangedBut [.reg 15, .dirty, .plane1, .plane2] t := by
  obtain ⟨hp1, hcoll1, hchanged1⟩ := drawing1_spec x y wb rows s h.width h.height
  obtain ⟨hp2, hcoll2, hchanged2⟩ := drawing2_spec x y wb rows s h.width h.height
  refine exec_completes_with (h.failure.trans (checkReads_eq_none.2 hr)) ?_
  rw [h.effect]
  refine ⟨rfl, hp1, hp2, ?_, ?_, frame_setResult (frame_mono (frame_composited x y wb rows s) (by simp)) _⟩
  · refine (writeFlag_flag _ _).trans (if_congr ?_ rfl rfl)
    rw [Bool.or_eq_true, hcoll1, hcoll2, exists_pixel_or]
  · show (s.dirty || (drawing1 x y wb rows s).changed || (drawing2 x y wb rows s).changed) = true ↔ _
    rw [Bool.or_eq_true, Bool.or_eq_true, hchanged1, hchanged2, exists_pixel_or, or_assoc]

/-- With no plane selected only the flag is written (D13). -/
theorem composited_no_plane {s : State} (x y : Reg) (wb rows : Nat) (h : s.planes = 0) :
    composited x y wb rows s = s.writeFlag false := by
  have h1 : s.selects1 = false := by simp [State.selects1, h]
  have h2 : s.selects2 = false := by simp [State.selects2, h]
  simp [composited, drawing1, drawing2, Drawing.start, h1, h2]

theorem selectedCount_no_plane {s : State} (h : s.planes = 0) : s.selectedCount = 0 := by
  simp [State.selectedCount, State.selects1, State.selects2, h]

/-! ### What a draw reads -/

theorem readByte_congr {s t : State} (hconfig : t.config = s.config) (hmem : ∀ o, memRead t.mem o = memRead s.mem o)
    (a : Word) : t.readByte a = s.readByte a := by
  rw [State.readByte, State.readByte, State.storedOffset, State.storedOffset, hconfig, hmem]

/-- Two states with the same mask, index register, configuration, stored bytes and coordinates. -/
structure SameSprite (s t : State) (x y : Reg) : Prop where
  planes : t.planes = s.planes
  index : t.i = s.i
  config : t.config = s.config
  mem : ∀ o, memRead t.mem o = memRead s.mem o
  column : t.readV x = s.readV x
  row : t.readV y = s.readV y

section SameSprite

variable {s t : State} {x y : Reg}

theorem SameSprite.addrAt (h : SameSprite s t x y) (k : Nat) : t.addrAt k = s.addrAt k := by
  rw [State.addrAt, h.index, State.addrAt]

theorem SameSprite.canRead (h : SameSprite s t x y) {k : Nat} (hr : s.canRead (s.addrAt k)) :
    t.canRead (t.addrAt k) := by
  rw [State.canRead, h.config, h.addrAt]
  exact hr

theorem SameSprite.selects (h : SameSprite s t x y) : t.selects1 = s.selects1 ∧ t.selects2 = s.selects2 := by
  simp only [State.selects1, State.selects2, h.planes, and_self]

theorem SameSprite.selectedCount (h : SameSprite s t x y) : t.selectedCount = s.selectedCount := by
  rw [State.selectedCount, h.selects.1, h.selects.2, State.selectedCount]

theorem SameSprite.spriteBit (h : SameSprite s t x y) (base wb rows : Nat) (x0 y0 : Byte) (px : Fin 128) (py : Fin 64) :
    t.spriteBit base wb rows x0 y0 px py = s.spriteBit base wb rows x0 y0 px py := by
  simp only [State.spriteBit, h.addrAt, readByte_congr h.config h.mem]

/-- They toggle the same pixels. -/
theorem SameSprite.toggles (h : SameSprite s t x y) (wb rows : Nat) :
    t.toggles1 x y wb rows = s.toggles1 x y wb rows ∧ t.toggles2 x y wb rows = s.toggles2 x y wb rows := by
  obtain ⟨h1, h2⟩ := h.selects
  constructor
  · funext px py
    rw [State.toggles1, h1, h.spriteBit, h.column, h.row, State.toggles1]
  · funext px py
    rw [State.toggles2, h1, h2, h.spriteBit, h.column, h.row, State.toggles2]

end SameSprite

/-- Toggling the same pixels again restores a plane. -/
theorem plane_toggled_twice {p q r : Plane} {toggles : Fin 128 → Fin 64 → Bool}
    (hq : ∀ px py, planeGet q px py = (planeGet p px py ^^ toggles px py))
    (hr : ∀ px py, planeGet r px py = (planeGet q px py ^^ toggles px py)) : r = p :=
  plane_ext fun px py => by rw [hr, hq, Bool.xor_assoc, Bool.xor_self, Bool.xor_false]

/-- A toggled pixel is set afterwards exactly when it was unset. -/
theorem toggled_and_set {p q : Plane} {toggles : Fin 128 → Fin 64 → Bool}
    (hq : ∀ px py, planeGet q px py = (planeGet p px py ^^ toggles px py)) (px : Fin 128) (py : Fin 64) :
    (toggles px py = true ∧ planeGet q px py = true) ↔ (toggles px py = true ∧ planeGet p px py = false) :=
  and_congr_right fun h => by rw [hq, h, Bool.xor_true, Bool.not_eq_true']

/-! ### The statements -/

/-- Settles O47: both planes are replaced by the blank one. -/
theorem clearZeroesBothPlanes : Obligations.ClearZeroesBothPlanes := fun s =>
  exec_completes_with rfl ⟨rfl, rfl, fun px py => ⟨planeGet_blank px py, planeGet_blank px py⟩,
    frame_setResult (frame_mono (frame_effect .cls s) (by simp [written])) _⟩

/-- Settles O48: the mask is the operand, and the decoder bounds `X`. -/
theorem planeSelectSetsTheMask : Obligations.PlaneSelectSetsTheMask := by
  refine ⟨fun m s => exec_completes_with rfl ⟨rfl, rfl, frame_setResult (frame_planes s m) _⟩, fun x hx => ?_⟩
  rw [decode_classF (fieldClass_formatXNN _ _ _), decodeClassF]
  simp only [fieldNN_formatXNN, fieldX_formatXNN]
  exact if_neg (not_le.2 hx)

/-- Settles O49: both draws composite a sprite that fits the display. -/
theorem drawTogglesTheWrappedSprite : Obligations.DrawTogglesTheWrappedSprite := fun _ _ _ s _ _ _ hi hr =>
  draw_completes (draws_of_form hi s) hr

/-- Settles O50: no byte is checked and nothing but the flag is written. -/
theorem drawWithNoPlaneOnlyClearsTheFlag : Obligations.DrawWithNoPlaneOnlyClearsTheFlag := by
  intro x y n s i hi hplanes
  obtain ⟨wb, rows, hform⟩ : ∃ wb rows, (i = .drw x y n ∧ wb = 1 ∧ rows = n.toNat) ∨
      (i = .drwx x y ∧ wb = 2 ∧ rows = 16) :=
    hi.elim (fun h => ⟨_, _, .inl ⟨h, rfl, rfl⟩⟩) fun h => ⟨_, _, .inr ⟨h, rfl, rfl⟩⟩
  have hdraws := draws_of_form hform s
  have hf : Laws.failure i s = none := by
    rw [hdraws.failure, selectedCount_no_plane hplanes, Nat.zero_mul]
    rfl
  refine exec_completes_with hf ?_
  rw [hdraws.effect, composited_no_plane x y wb rows hplanes]
  exact ⟨rfl, writeFlag_flag s false, frame_setResult (frame_writeFlag s false) _⟩

/-- Settles O51: the first draw leaves all that the second reads, so both toggle the same pixels. -/
theorem drawTwiceRestoresThePlanes : Obligations.DrawTwiceRestoresThePlanes := by
  intro x y n s t i wb rows hi hexec hok hx hy
  have hr := checkReads_eq_none.1 ((draws_of_form hi s).failure ▸ (exec_ok hexec hok).1)
  obtain ⟨t', ht', -, hp1, hp2, -, -, hframe⟩ := draw_completes (draws_of_form hi s) hr
  obtain rfl : t' = t := by rw [ht'] at hexec; exact Host.Outcome.next.inj hexec
  have hsame : SameSprite s t' x y := {
    planes := hframe .planes (by simp)
    index := hframe .index (by simp)
    config := hframe .config (by simp)
    mem := fun o => hframe (.byte o) (by simp)
    column := hx
    row := hy }
  obtain ⟨htoggles1, htoggles2⟩ := hsame.toggles wb rows
  have hr' : ∀ j < t'.selectedCount * (wb * rows), t'.canRead (t'.addrAt j) := fun j hj =>
    hsame.canRead (hr j (hsame.selectedCount ▸ hj))
  obtain ⟨u, hu, huok, hq1, hq2, hflag, -, -⟩ := draw_completes (draws_of_form hi t') hr'
  rw [htoggles1] at hq1
  rw [htoggles2] at hq2
  refine ⟨u, hu, huok, plane_toggled_twice hp1 hq1, plane_toggled_twice hp2 hq2, hflag.trans (if_congr ?_ rfl rfl)⟩
  rw [htoggles1, htoggles2]
  exact exists_congr fun px => exists_congr fun py =>
    or_congr (toggled_and_set hp1 px py) (toggled_and_set hp2 px py)

end Sys2Proof.Proofs.Display

/-! ## Proofs: loading and patching programs (`50_host_interface.md` R202, R203, R209, `20_memory.md` R64) -/

namespace Sys2Proof.Proofs.Loading

open Sys2Proof.Machine Sys2Proof.Laws

/-! ### The two branches of each command -/

section Branches

variable {s : State} {bytes : List Byte} {offset : Nat}

theorem loadRom_too_large (h : bytes.length > s.config.memSize) :
    s.loadRom bytes = s.setResult (.error .romTooLarge) := if_pos h

theorem loadRom_fits (h : bytes.length ≤ s.config.memSize) :
    s.loadRom bytes = { s.resetCommand with mem := memWriteBytes [] 0 bytes, result := .ok } := if_neg (not_lt.2 h)

theorem writeRom_too_large (h : offset + bytes.length > s.config.memSize) :
    s.writeRom bytes offset = s.setResult (.error .romTooLarge) := if_pos h

theorem writeRom_fits (h : offset + bytes.length ≤ s.config.memSize) :
    s.writeRom bytes offset = { s with mem := memWriteBytes s.mem offset bytes, result := .ok } := if_neg (not_lt.2 h)

end Branches

/-! ### Frames -/

/-- Replacing memory leaves every part that is no byte. -/
theorem same_mem_result (s : State) (m : Memory) (r : Result) {p : Part} (h : ∀ o, p ≠ .byte o) :
    p.same s { s with mem := m, result := r } := by
  cases p with
  | byte o => exact absurd rfl (h o)
  | _ => rfl

/-- Writing a byte string leaves all but the bytes written. -/
theorem frame_memWriteBytes (s : State) (bytes : List Byte) (offset : Nat) (r : Result) :
    s.unchangedBut ((List.range bytes.length).map fun k => Part.byte (offset + k))
      { s with mem := memWriteBytes s.mem offset bytes, result := r } := fun p hp => by
  cases p with
  | byte o =>
    refine (memRead_memWriteBytes s.mem bytes offset o).trans (if_neg fun ⟨hlow, hhigh⟩ => hp ?_)
    exact List.mem_map.2 ⟨o - offset, List.mem_range.2 (by omega), congrArg Part.byte (by omega)⟩
  | _ => rfl

theorem frame_dirty (s : State) (b : Bool) : s.unchangedBut [.dirty] { s with dirty := b } := fun p hp => by
  cases p with
  | dirty => simp at hp
  | _ => rfl

/-- A program loaded into empty memory reads as its bytes and then zeros (R34, R202). -/
theorem memRead_loaded (bytes : List Byte) (o : Nat) : memRead (memWriteBytes [] 0 bytes) o = bytes.getD o 0 := by
  rw [memRead_memWriteBytes, Nat.sub_zero]
  split_ifs with h
  · rfl
  · exact (List.getD_eq_default _ _ (by omega)).symm

/-- A step with a fetched word runs that word on the advanced state (R71, R73). -/
theorem step_of_fetchWord_some {s : State} {w : Word} (hf : s.fetchWord = some w) :
    step s = endOfStep (execWord w s.advance) := by
  simp only [step, hf]

/-! ### The statements -/

/-- Settles O56: the size decides. -/
theorem loadRomReplacesMemory : Obligations.LoadRomReplacesMemory := by
  intro bytes s
  refine ⟨fun hlarge => ?_, fun hfits => ⟨s.resetCommand, s.loadRom bytes, rfl, rfl, ?_⟩⟩
  · rw [command, loadRom_too_large hlarge]
    exact failsWith_raise _ s
  · rw [loadRom_fits hfits]
    exact ⟨rfl, fun _ hp => same_mem_result s.resetCommand _ _ hp, memRead_loaded bytes⟩

/-- Settles O57: the size decides. -/
theorem writeRomPatchesMemory : Obligations.WriteRomPatchesMemory := by
  intro bytes offset s
  refine ⟨fun hlarge => ?_, fun hfits => ⟨s.writeRom bytes offset, rfl, ?_⟩⟩
  · rw [command, writeRom_too_large hlarge]
    exact failsWith_raise _ s
  · rw [writeRom_fits hfits]
    refine ⟨rfl, fun k hk => ?_, frame_memWriteBytes s bytes offset .ok⟩
    rw [memRead_memWriteBytes, if_pos ⟨Nat.le_add_right _ _, by omega⟩, Nat.add_sub_cancel_left]

/-- Settles O58: the command is one update. -/
theorem frameAckClearsDirty : Obligations.FrameAckClearsDirty := fun s =>
  ⟨s.frameAck, rfl, rfl, rfl, frame_dirty s false⟩

/-- Settles O59: the fetch reads the two bytes written. -/
theorem patchedWordIsFetchedNext : Obligations.PatchedWordIsFetchedNext := by
  intro s hi lo hpc
  refine ⟨s.writeRom [hi, lo] s.pc.toNat, rfl, ?_⟩
  rw [writeRom_fits (show s.pc.toNat + [hi, lo].length ≤ s.config.memSize from hpc)]
  refine step_of_fetchWord_some ?_
  rw [fetchWord_some (by exact hpc)]
  simp [memRead_memWriteBytes]

end Sys2Proof.Proofs.Loading
